-- ==== Sys2Proof/Word.lean ====
section
/-! DEFINITION. The widths of the hardware's values (R5, R11 of spec/00_scope.md). -/

namespace Sys2Proof

/-- A 64-bit pattern: a register (u64), the pc (i64), an address, an immediate (R11). -/
abbrev Word := BitVec 64

/-- One addressable unit of memory (R36). -/
abbrev Byte := BitVec 8

/-- The 32-bit instruction word `w` (R10, R82). -/
abbrev InstrWord := BitVec 32

/-- A register index, 0 to 31 (R21). -/
abbrev Reg := Fin 32

end Sys2Proof
end

