-- ==== Sys2Proof/Syntax.lean ====
section
/-! DEFINITION. The nine instructions (R2, R100) and the Instruction record the Decoder hands to the Engine
(R131 to R135 of spec/40_decoder.md). -/

namespace Sys2Proof

/-- One constructor per row of the opcode table. The arguments are the record's operand slots in slot order
(R134, R153); an immediate is the signed 64-bit value of the slot, already a byte offset where it is one. -/
inductive Instr where
  /-- R190. `imm` is `imm_J`. -/
  | jal (rd : Reg) (imm : Word)
  /-- R191. `imm` is `imm_I`. -/
  | jalr (rd rs1 : Reg) (imm : Word)
  /-- R200. `imm` is the plain field `imm_U20` (R94, R147). -/
  | lui (rd : Reg) (imm : Word)
  /-- R201. `imm` is the shifted form `imm_U` (R93, R148). -/
  | auipc (rd : Reg) (imm : Word)
  /-- R210. `imm` is `imm_I`. -/
  | addi (rd rs1 : Reg) (imm : Word)
  /-- R211. -/
  | add (rd rs1 rs2 : Reg)
  /-- R220. `imm` is `imm_B`. -/
  | blt (rs1 rs2 : Reg) (imm : Word)
  /-- R230. `imm` is `imm_I`. -/
  | lb (rd rs1 : Reg) (imm : Word)
  /-- R231. `rs1` is the base, `rs2` the value; `imm` is `imm_S`. -/
  | sb (rs1 rs2 : Reg) (imm : Word)
  deriving DecidableEq, Repr

/-- The closed id set of R132. `invalid` stands only before decoding completes. -/
inductive InstrId where
  | jal | jalr | lui | auipc | addi | add | blt | lb | sb | unknown | invalid
  deriving DecidableEq, Repr

/-- The eight named flags of R133, as named booleans (D17). -/
structure Flags where
  fmtR : Bool := false
  fmtI : Bool := false
  fmtS : Bool := false
  fmtB : Bool := false
  fmtU : Bool := false
  fmtJ : Bool := false
  /-- Control transfer: the generic pc advance is skipped (R175). -/
  ct : Bool := false
  compressed : Bool := false
  deriving DecidableEq, Repr

/-- The packing this spec suggests for the bitset (R133, D17): bit 0 `FMT_R` to bit 7 `COMPRESSED`. -/
def Flags.pack (f : Flags) : BitVec 8 :=
  BitVec.ofBool f.compressed ++ BitVec.ofBool f.ct ++ BitVec.ofBool f.fmtJ ++ BitVec.ofBool f.fmtU ++
    BitVec.ofBool f.fmtB ++ BitVec.ofBool f.fmtS ++ BitVec.ofBool f.fmtI ++ BitVec.ofBool f.fmtR

/-- The format flags that are set, as a number (R135 asks for exactly one). -/
def Flags.formatCount (f : Flags) : Nat :=
  f.fmtR.toNat + f.fmtI.toNat + f.fmtS.toNat + f.fmtB.toNat + f.fmtU.toNat + f.fmtJ.toNat

/-- The Instruction record (R131). It is transient: nothing of it is machine state (R39). -/
structure Record where
  id : InstrId
  /-- The byte offset the instruction was fetched from. -/
  address : Word
  /-- 2 or 4 once decoded; equals the bytes consumed. -/
  size : Nat
  flags : Flags
  operandCount : Nat
  slot0 : Word
  slot1 : Word
  slot2 : Word
  deriving DecidableEq, Repr

end Sys2Proof
end

