-- ==== Sys2Proof/WellFormed.lean ====
section
/-! DEFINITION. When an instruction term is one that an encoding can stand for: each immediate lies in the range
of its format (R90 to R96 of spec/30_encoding.md, R159 (g) of spec/40_decoder.md). A register field needs no
check: every index 0 to 31 is legal in every field (R24). -/

namespace Sys2Proof

/-- `lo <= v <= hi` for `v` read as `i64`. -/
def inRange (v : Word) (lo hi : Int) : Bool := decide (lo ≤ v.toInt) && decide (v.toInt ≤ hi)

/-- `v` is a multiple of `2^n`. -/
def lowBitsZero (v : Word) (n : Nat) : Bool := v.toNat % 2 ^ n == 0

/-- R90, R91: the 12-bit immediates. -/
def fitsImm12 (v : Word) : Bool := inRange v (-2048) 2047

/-- R92: a 13-bit even byte offset. -/
def fitsImmB (v : Word) : Bool := inRange v (-4096) 4094 && lowBitsZero v 1

/-- R93: the shifted upper immediate. -/
def fitsImmU (v : Word) : Bool := inRange v (-2147483648) 2147479552 && lowBitsZero v 12

/-- R94: the plain upper immediate. -/
def fitsImmU20 (v : Word) : Bool := inRange v (-524288) 524287

/-- R95: a 21-bit even byte offset. -/
def fitsImmJ (v : Word) : Bool := inRange v (-1048576) 1048574 && lowBitsZero v 1

/-- The check, one arm per instruction. -/
def Instr.wellFormed : Instr → Bool
  | .jal _ imm => fitsImmJ imm
  | .jalr _ _ imm => fitsImm12 imm
  | .lui _ imm => fitsImmU20 imm
  | .auipc _ imm => fitsImmU imm
  | .addi _ _ imm => fitsImm12 imm
  | .add _ _ _ => true
  | .blt _ _ imm => fitsImmB imm
  | .lb _ _ imm => fitsImm12 imm
  | .sb _ _ imm => fitsImm12 imm

end Sys2Proof
end

