-- ==== Sys2Proof/Decode.lean ====
section
/-! DEFINITION. The Decoder block (spec/40_decoder.md) over the encoding of spec/30_encoding.md, and the encoder
written from the same tables. The table walk of R136 to R152 is the decoder; `decodeWhole` below it is R158's one
function, written separately so that the two can be stated equal. -/

namespace Sys2Proof

/-! ## Fields of the word (R83) -/

/-- Word bits 1 to 0, the length bits. -/
def lenBits (w : InstrWord) : BitVec 2 := w.extractLsb' 0 2

/-- `op5 = w[6:2]`. -/
def op5Of (w : InstrWord) : BitVec 5 := w.extractLsb' 2 5

/-- `rd = w[11:7]`. -/
def rdOf (w : InstrWord) : BitVec 5 := w.extractLsb' 7 5

/-- `funct3 = w[14:12]`. -/
def funct3Of (w : InstrWord) : BitVec 3 := w.extractLsb' 12 3

/-- `rs1 = w[19:15]`. -/
def rs1Of (w : InstrWord) : BitVec 5 := w.extractLsb' 15 5

/-- `rs2 = w[24:20]`. -/
def rs2Of (w : InstrWord) : BitVec 5 := w.extractLsb' 20 5

/-- `funct7 = w[31:25]`. -/
def funct7Of (w : InstrWord) : BitVec 7 := w.extractLsb' 25 7

/-! ## Extension and immediates (R12, R90 to R95) -/

/-- `sext_N` to 64 bits (R12). -/
def sext {n : Nat} (v : BitVec n) : Word := v.signExtend 64

/-- `zext_N` to 64 bits (R12). -/
def zext {n : Nat} (v : BitVec n) : Word := v.setWidth 64

/-- R90: `sext_12(w[31:20])`. -/
def immI (w : InstrWord) : Word := sext (w.extractLsb' 20 12)

/-- R91: `sext_12` of `w[31:25]` over `w[11:7]`. -/
def immS (w : InstrWord) : Word := sext (w.extractLsb' 25 7 ++ w.extractLsb' 7 5 : BitVec 12)

/-- R92: `sext_13` of `w[31]`, `w[7]`, `w[30:25]`, `w[11:8]` and a constant zero. -/
def immB (w : InstrWord) : Word :=
  sext (w.extractLsb' 31 1 ++ w.extractLsb' 7 1 ++ w.extractLsb' 25 6 ++ w.extractLsb' 8 4 ++ 0#1 : BitVec 13)

/-- R93, the shifted form: `sext_32` of `w[31:12]` over twelve zeros. -/
def immU (w : InstrWord) : Word := sext (w.extractLsb' 12 20 ++ 0#12 : BitVec 32)

/-- R94, the plain form: `sext_20(w[31:12])`. -/
def immU20 (w : InstrWord) : Word := sext (w.extractLsb' 12 20)

/-- R95: `sext_21` of `w[31]`, `w[19:12]`, `w[20]`, `w[30:21]` and a constant zero. -/
def immJ (w : InstrWord) : Word :=
  sext (w.extractLsb' 31 1 ++ w.extractLsb' 12 8 ++ w.extractLsb' 20 1 ++ w.extractLsb' 21 10 ++ 0#1 : BitVec 21)

/-! ## The format decoders (R141 to R146) -/

/-- The six formats (R84 to R89). -/
inductive Format where
  | r | i | s | b | u | j
  deriving DecidableEq, Repr

/-- A format decoder writes the slots, the operand count and the format flags, and never the id. -/
def Format.apply (f : Format) (w : InstrWord) (ins : Record) : Record :=
  match f with
  | .r => { ins with
      slot0 := zext (rdOf w), slot1 := zext (rs1Of w), slot2 := zext (rs2Of w), operandCount := 3
      flags := { ins.flags with fmtR := true } }
  | .i => { ins with
      slot0 := zext (rdOf w), slot1 := zext (rs1Of w), slot2 := immI w, operandCount := 3
      flags := { ins.flags with fmtI := true } }
  | .s => { ins with
      slot0 := zext (rs1Of w), slot1 := zext (rs2Of w), slot2 := immS w, operandCount := 3
      flags := { ins.flags with fmtS := true } }
  | .b => { ins with
      slot0 := zext (rs1Of w), slot1 := zext (rs2Of w), slot2 := immB w, operandCount := 3
      flags := { ins.flags with fmtB := true, ct := true } }
  | .u => { ins with
      slot0 := zext (rdOf w), slot1 := immU w, slot2 := 0, operandCount := 2
      flags := { ins.flags with fmtU := true } }
  | .j => { ins with
      slot0 := zext (rdOf w), slot1 := immJ w, slot2 := 0, operandCount := 2
      flags := { ins.flags with fmtJ := true, ct := true } }

/-! ## The refinement hooks (R147 to R151) -/

/-- The five hooks, named by the opcode they refine. -/
inductive Hook where
  | lui | auipc | jalr | jal | add
  deriving DecidableEq, Repr

/-- A hook may override the id or add flags (R140); the LUI hook also undoes the implicit shift (R147). -/
def Hook.apply (h : Hook) (w : InstrWord) (ins : Record) : Record :=
  match h with
  | .lui => { ins with id := .lui, slot1 := ins.slot1.sshiftRight 12 }
  | .auipc => { ins with id := .auipc }
  | .jalr => { ins with
      id := if funct3Of w = 0b000#3 then .jalr else .unknown
      flags := { ins.flags with ct := true } }
  | .jal => { ins with id := .jal }
  | .add => if ins.id = .add ∧ funct7Of w ≠ 0b0000000#7 then { ins with id := .unknown } else ins

/-! ## The tables (R139, R152) -/

/-- A dispatch-table entry: a format decoder, an optional function-code table, an optional hook (R139). -/
structure Entry where
  format : Format
  functionCodes : Option (List (BitVec 3 × InstrId))
  hook : Option Hook
  deriving DecidableEq, Repr

/-- The dispatch table as the Decoder holds it (R97, R98, R152): nine of the 32 opcodes have an entry. -/
def dispatchTable : List (BitVec 5 × Entry) :=
  [ (0b00000#5, ⟨.i, some [(0b000#3, .lb)], none⟩)
  , (0b00100#5, ⟨.i, some [(0b000#3, .addi)], none⟩)
  , (0b00101#5, ⟨.u, none, some .auipc⟩)
  , (0b01000#5, ⟨.s, some [(0b000#3, .sb)], none⟩)
  , (0b01100#5, ⟨.r, some [(0b000#3, .add)], some .add⟩)
  , (0b01101#5, ⟨.u, none, some .lui⟩)
  , (0b11000#5, ⟨.b, some [(0b100#3, .blt)], none⟩)
  , (0b11001#5, ⟨.i, none, some .jalr⟩)
  , (0b11011#5, ⟨.j, none, some .jal⟩) ]

/-- The id from the function-code table if there is one; no entry for the code gives `Unknown` (R140). -/
def Entry.selectId (e : Entry) (w : InstrWord) (ins : Record) : Record :=
  match e.functionCodes with
  | none => ins
  | some codes => { ins with id := (codes.lookup (funct3Of w)).getD .unknown }

/-- R140: the format decoder, then the id from the function-code table, then the hook. -/
def Entry.apply (e : Entry) (w : InstrWord) (ins : Record) : Record :=
  let selected := e.selectId w (e.format.apply w ins)
  match e.hook with
  | none => selected
  | some h => h.apply w selected

/-! ## The decoder -/

/-- The record before decoding: `Invalid`, everything else zero or clear (R158). -/
def Record.blank (offset : Word) : Record :=
  { id := .invalid, address := offset, size := 0, flags := {}, operandCount := 0, slot0 := 0, slot1 := 0, slot2 := 0 }

/-- R155: the record of a compressed-length halfword. -/
def Record.compressedStub (offset : Word) : Record :=
  { Record.blank offset with id := .unknown, size := 2, flags := { compressed := true } }

/-- Steps 2 to 5 of the algorithm (R137 to R140) on a word. -/
def decodeWord (w : InstrWord) (offset : Word) : Record :=
  let ins := { Record.blank offset with size := 4 }
  match dispatchTable.lookup (op5Of w) with
  | none => { ins with id := .unknown }
  | some e => e.apply w ins

/-- R82, R53: little-endian word assembly. -/
def assemble (b0 b1 b2 b3 : Byte) : InstrWord := b3 ++ b2 ++ b1 ++ b0

/-- R81: a first byte whose low two bits are `0b11` starts a 4-byte instruction, any other a 2-byte one. -/
def isFourByte (b0 : Byte) : Bool := b0.extractLsb' 0 2 == 0b11#2

/-- The Decoder (R130): a total function of the bytes at an offset. Only `b0` is looked at when it does not
start a 4-byte instruction (R136). -/
def decodeBytes (b0 b1 b2 b3 : Byte) (offset : Word) : Record :=
  if isFourByte b0 then decodeWord (assemble b0 b1 b2 b3) offset else Record.compressedStub offset

/-- R7: the second output of `decode`, which equals the record's size. -/
def Record.bytesConsumed (r : Record) : Nat := r.size

/-- The whole function as R158 writes it, one case per opcode. -/
def decodeWhole (b0 b1 b2 b3 : Byte) (offset : Word) : Record :=
  if b0.extractLsb' 0 2 ≠ 0b11#2 then
    ⟨.unknown, offset, 2, { compressed := true }, 0, 0, 0, 0⟩
  else
    let w : InstrWord := b3 ++ b2 ++ b1 ++ b0
    let rd := zext (w.extractLsb' 7 5)
    let rs1 := zext (w.extractLsb' 15 5)
    let rs2 := zext (w.extractLsb' 20 5)
    let f3 := w.extractLsb' 12 3
    let f7 := w.extractLsb' 25 7
    let op5 := w.extractLsb' 2 5
    if op5 = 0b00000#5 then
      ⟨if f3 = 0b000#3 then .lb else .unknown, offset, 4, { fmtI := true }, 3, rd, rs1, immI w⟩
    else if op5 = 0b00100#5 then
      ⟨if f3 = 0b000#3 then .addi else .unknown, offset, 4, { fmtI := true }, 3, rd, rs1, immI w⟩
    else if op5 = 0b00101#5 then
      ⟨.auipc, offset, 4, { fmtU := true }, 2, rd, immU w, 0⟩
    else if op5 = 0b01000#5 then
      ⟨if f3 = 0b000#3 then .sb else .unknown, offset, 4, { fmtS := true }, 3, rs1, rs2, immS w⟩
    else if op5 = 0b01100#5 then
      ⟨if f3 = 0b000#3 ∧ f7 = 0b0000000#7 then .add else .unknown, offset, 4, { fmtR := true }, 3, rd, rs1, rs2⟩
    else if op5 = 0b01101#5 then
      ⟨.lui, offset, 4, { fmtU := true }, 2, rd, immU20 w, 0⟩
    else if op5 = 0b11000#5 then
      ⟨if f3 = 0b100#3 then .blt else .unknown, offset, 4, { fmtB := true, ct := true }, 3, rs1, rs2, immB w⟩
    else if op5 = 0b11001#5 then
      ⟨if f3 = 0b000#3 then .jalr else .unknown, offset, 4, { fmtI := true, ct := true }, 3, rd, rs1, immI w⟩
    else if op5 = 0b11011#5 then
      ⟨.jal, offset, 4, { fmtJ := true, ct := true }, 2, rd, immJ w, 0⟩
    else
      ⟨.unknown, offset, 4, {}, 0, 0, 0, 0⟩

/-! ## From a record to an instruction -/

/-- A register slot holds the 5-bit index zero-extended (R134). -/
def slotReg (slot : Word) : Reg := Fin.ofNat 32 slot.toNat

/-- The register a 5-bit field of the word names. -/
def fieldReg (b : BitVec 5) : Reg := ⟨b.toNat, b.isLt⟩

/-- The slots read under the interpretation the id's format fixes (R134, R153, R174); none for an id that has no
handler (R172, R173). -/
def Record.toInstr (r : Record) : Option Instr :=
  match r.id with
  | .jal => some (.jal (slotReg r.slot0) r.slot1)
  | .jalr => some (.jalr (slotReg r.slot0) (slotReg r.slot1) r.slot2)
  | .lui => some (.lui (slotReg r.slot0) r.slot1)
  | .auipc => some (.auipc (slotReg r.slot0) r.slot1)
  | .addi => some (.addi (slotReg r.slot0) (slotReg r.slot1) r.slot2)
  | .add => some (.add (slotReg r.slot0) (slotReg r.slot1) (slotReg r.slot2))
  | .blt => some (.blt (slotReg r.slot0) (slotReg r.slot1) r.slot2)
  | .lb => some (.lb (slotReg r.slot0) (slotReg r.slot1) r.slot2)
  | .sb => some (.sb (slotReg r.slot0) (slotReg r.slot1) r.slot2)
  | .unknown => none
  | .invalid => none

/-- Why bytes are no instruction, by the rule that says so. -/
inductive Reject where
  /-- R115: a compressed-length halfword. -/
  | compressed
  /-- R110, R116: the opcode has no dispatch-table entry. -/
  | noTableEntry
  /-- R111: the function code is not in the opcode's table. -/
  | functionCode
  /-- R112: JALR's opcode with a function code other than `0b000`. -/
  | jalrFunctionCode
  /-- R113: a register-register word with function code `0b000` and a nonzero `funct7`. -/
  | addFunct7
  deriving DecidableEq, Repr

/-- What the bytes are: one of the nine instructions, or rejected by name. -/
inductive Decoded where
  | ok (i : Instr)
  | rejected (why : Reject)
  deriving DecidableEq, Repr

/-- The rule by which a word that is no instruction is `Unknown` (R110 to R113). -/
def rejectReason (w : InstrWord) : Reject :=
  if (dispatchTable.lookup (op5Of w)).isNone then .noTableEntry
  else if op5Of w = 0b11001#5 then .jalrFunctionCode
  else if op5Of w = 0b01100#5 ∧ funct3Of w = 0b000#3 then .addFunct7
  else .functionCode

/-- The instruction a word stands for; an instruction's meaning does not depend on the offset of its record. -/
def decodeInstrWord (w : InstrWord) : Decoded :=
  match (decodeWord w 0).toInstr with
  | some i => .ok i
  | none => .rejected (rejectReason w)

/-- The instruction the bytes stand for. -/
def decodeInstr (b0 b1 b2 b3 : Byte) : Decoded :=
  if isFourByte b0 then decodeInstrWord (assemble b0 b1 b2 b3) else .rejected .compressed

/-- The instruction, if the bytes are one. -/
def Decoded.toOption : Decoded → Option Instr
  | .ok i => some i
  | .rejected _ => none

/-! ## The encoder (R84 to R89, R100) -/

/-- A register index as a 5-bit field. -/
def regField (r : Reg) : BitVec 5 := BitVec.ofNat 5 r.val

/-- R84. -/
def encodeR (funct7 : BitVec 7) (rs2 rs1 : Reg) (funct3 : BitVec 3) (rd : Reg) (op5 : BitVec 5) : InstrWord :=
  funct7 ++ regField rs2 ++ regField rs1 ++ funct3 ++ regField rd ++ op5 ++ 0b11#2

/-- R85. -/
def encodeI (imm : Word) (rs1 : Reg) (funct3 : BitVec 3) (rd : Reg) (op5 : BitVec 5) : InstrWord :=
  imm.extractLsb' 0 12 ++ regField rs1 ++ funct3 ++ regField rd ++ op5 ++ 0b11#2

/-- R86. -/
def encodeS (imm : Word) (rs2 rs1 : Reg) (funct3 : BitVec 3) (op5 : BitVec 5) : InstrWord :=
  imm.extractLsb' 5 7 ++ regField rs2 ++ regField rs1 ++ funct3 ++ imm.extractLsb' 0 5 ++ op5 ++ 0b11#2

/-- R87. -/
def encodeB (imm : Word) (rs2 rs1 : Reg) (funct3 : BitVec 3) (op5 : BitVec 5) : InstrWord :=
  imm.extractLsb' 12 1 ++ imm.extractLsb' 5 6 ++ regField rs2 ++ regField rs1 ++ funct3 ++
    imm.extractLsb' 1 4 ++ imm.extractLsb' 11 1 ++ op5 ++ 0b11#2

/-- R88: the 20-bit field over the rest. -/
def encodeU (field : BitVec 20) (rd : Reg) (op5 : BitVec 5) : InstrWord :=
  field ++ regField rd ++ op5 ++ 0b11#2

/-- R89. -/
def encodeJ (imm : Word) (rd : Reg) (op5 : BitVec 5) : InstrWord :=
  imm.extractLsb' 20 1 ++ imm.extractLsb' 1 10 ++ imm.extractLsb' 11 1 ++ imm.extractLsb' 12 8 ++
    regField rd ++ op5 ++ 0b11#2

/-- The word of an instruction (R97, R98, R100). LUI's slot is the plain field, AUIPC's the shifted one. -/
def encode : Instr → InstrWord
  | .jal rd imm => encodeJ imm rd 0b11011#5
  | .jalr rd rs1 imm => encodeI imm rs1 0b000#3 rd 0b11001#5
  | .lui rd imm => encodeU (imm.extractLsb' 0 20) rd 0b01101#5
  | .auipc rd imm => encodeU (imm.extractLsb' 12 20) rd 0b00101#5
  | .addi rd rs1 imm => encodeI imm rs1 0b000#3 rd 0b00100#5
  | .add rd rs1 rs2 => encodeR 0b0000000#7 rs2 rs1 0b000#3 rd 0b01100#5
  | .blt rs1 rs2 imm => encodeB imm rs2 rs1 0b100#3 0b11000#5
  | .lb rd rs1 imm => encodeI imm rs1 0b000#3 rd 0b00000#5
  | .sb rs1 rs2 imm => encodeS imm rs2 rs1 0b000#3 0b01000#5

/-- Byte `k` of a word as fetch lays it out, the first at the lowest address (R53). -/
def byteOf (w : InstrWord) (k : Nat) : Byte := w.extractLsb' (8 * k) 8

/-- The four bytes of a word in address order. -/
def wordBytes (w : InstrWord) : List Byte := [byteOf w 0, byteOf w 1, byteOf w 2, byteOf w 3]

/-! ## The opcode map as match and mask (R100) -/

/-- A row of the opcode table: a word `w` is the instruction when `w & mask = match`. -/
structure OpcodeRow where
  id : InstrId
  mask : InstrWord
  pattern : InstrWord
  deriving DecidableEq, Repr

/-- The nine rows of R100, in its order. -/
def opcodeRows : List OpcodeRow :=
  [ ⟨.jal, 0x0000007F#32, 0x0000006F#32⟩
  , ⟨.jalr, 0x0000707F#32, 0x00000067#32⟩
  , ⟨.lui, 0x0000007F#32, 0x00000037#32⟩
  , ⟨.auipc, 0x0000007F#32, 0x00000017#32⟩
  , ⟨.addi, 0x0000707F#32, 0x00000013#32⟩
  , ⟨.add, 0xFE00707F#32, 0x00000033#32⟩
  , ⟨.blt, 0x0000707F#32, 0x00004063#32⟩
  , ⟨.lb, 0x0000707F#32, 0x00000003#32⟩
  , ⟨.sb, 0x0000707F#32, 0x00000023#32⟩ ]

/-- `w & mask = match`. -/
def OpcodeRow.admits (row : OpcodeRow) (w : InstrWord) : Bool := w &&& row.mask == row.pattern

/-- The id of an instruction's row. -/
def Instr.id : Instr → InstrId
  | .jal _ _ => .jal
  | .jalr _ _ _ => .jalr
  | .lui _ _ => .lui
  | .auipc _ _ => .auipc
  | .addi _ _ _ => .addi
  | .add _ _ _ => .add
  | .blt _ _ _ => .blt
  | .lb _ _ _ => .lb
  | .sb _ _ _ => .sb

/-- The instruction the decoder reads from `nbits` bits numbered as the opcode table numbers them; the bits above
them are zero. -/
def decodeTableWord (nbits w : Nat) : Option Instr :=
  let word : InstrWord := BitVec.ofNat 32 (w % 2 ^ nbits)
  (decodeInstr (byteOf word 0) (byteOf word 1) (byteOf word 2) (byteOf word 3)).toOption

end Sys2Proof
end

