-- ==== Sys2Proof/Config.lean ====
section
/-! DEFINITION. What the spec leaves without a value: the five named parameters of R6 (spec/00_scope.md).
No rule of the spec fixes one of them, and every statement about a state quantifies over them. -/

namespace Sys2Proof

/-- The parameters the model takes as an argument of the launch state (R6, R40). -/
structure Params where
  /-- `MEM_SIZE`, the capacity of the byte buffer. -/
  memSize : Nat
  /-- `OUTPUT_PORT_ADDR`, the one store-only address; inside or outside memory (R64). -/
  outputPort : Word
  /-- `ENTRY_PC`, the first `pc`; no alignment or range is asked of it (D4, D20). -/
  entryPc : Word
  /-- `INIT_REGS`: x1 to x31, in order. -/
  initRegs : Vector Word 31
  /-- `INIT_MEM`: the bytes at launch, listed as memory lists them. -/
  initMem : List Host.Cell
  deriving DecidableEq, Repr

/-- The largest capacity the spec admits: "`MEM_SIZE <= 2^63`" (R6, D2). -/
def maxMemSize : Nat := 2 ^ 63

end Sys2Proof
end

