-- ==== Sys2Proof/Machine/ResetValues.lean ====
section
/-! DEFINITION. The values State.reset gives the five open parameters of R6. DESIGN CHOICE (assumption log entries
1 to 5): the spec gives none of them. The capacity, the port and the zeros are those of the vectors' conventions in
spec/95_test_vectors.md ("not defaults of the hardware"); no statement about a state rests on them. -/

namespace Sys2Proof.Machine

/-- DESIGN CHOICE, log entries 1 to 5: MEM_SIZE 0x2000, OUTPUT_PORT_ADDR 0x1000, ENTRY_PC 0, x1 to x31 zero, and
every byte of memory zero (nothing listed). -/
def resetParams : Params :=
  { memSize := 0x2000
    outputPort := 0x1000#64
    entryPc := 0#64
    initRegs := Vector.replicate 31 0#64
    initMem := [] }

end Sys2Proof.Machine
end

