-- ==== Sys2Proof/Machine/State.lean ====
section
/-! DEFINITION. The machine state (R20 of spec/10_state.md), the reasons a step can stop, and the launch and reset
states (R40). -/

namespace Sys2Proof.Machine

/-- The byte buffer (R36, R50): its capacity `MEM_SIZE` and its bytes, as a list of the cells that differ from what
an unlisted address reads as (`fillByte` in Machine/Ops.lean). -/
structure Memory where
  size : Nat
  cells : List Host.Cell
  deriving DecidableEq, Repr

/-- One delivery to the output sink: the byte and the address (R15, R63, D27). -/
structure OutputEvent where
  byte : Byte
  addr : Word
  deriving DecidableEq, Repr

/-- The machine state (R20). `mem.size`, `outputPort` and `sinkAttached` are fixed for a run (R36, R64, R293): they
stand in the state so that a statement about every state is one about every value of the parameters (R6). -/
structure State where
  /-- The program counter (R26). -/
  pc : Word
  /-- x0 to x31 (R21). Register 0 is stored and forced to zero around every step (R23, R171, R176). -/
  regs : Vector Word 32
  /-- The memory (R36). -/
  mem : Memory
  /-- `OUTPUT_PORT_ADDR` (R64). -/
  outputPort : Word
  /-- Whether the optional `output_sink` is attached (R20, R37). -/
  sinkAttached : Bool
  /-- The output trace, oldest event first (R15). -/
  trace : List OutputEvent
  deriving DecidableEq, Repr

/-- The failure outcomes of a step. All are safe: the machine stops where the spec says the step fails. -/
inductive Fault where
  /-- Raised by a step whose fetch at `pc` is not admitted (R60, R252). Safe. -/
  | fetchFault (pc : Word)
  /-- Raised by a step whose bytes decode to `Unknown` (R172, R251). Safe. -/
  | illegalInstruction
  /-- Raised by LB and SB when the effective address is outside memory (R61, R253). Safe. -/
  | accessFault (ea : Word)
  deriving DecidableEq, Repr

/-- What the spec itself refuses to give a meaning. All are safe: no claim can be proved of such a step. -/
inductive Refusal where
  /-- An instruction the dispatch gives no meaning; no arm raises it in this model. Safe. -/
  | notModelled (mnemonic : String)
  /-- Raised by SB to the port with no sink attached (U16, D11: refuse). Safe. -/
  | noOutputSink
  /-- Raised by the Engine on a record whose address is not `pc` (R9, U21, D21: refuse). Safe. -/
  | foreignRecord
  deriving DecidableEq, Repr

/-- The launch state of R40 for given parameters: `pc = ENTRY_PC`, x0 zero, x1 to x31 `INIT_REGS`, memory `INIT_MEM`,
the sink attached (R37, D11), the trace empty. -/
def State.launch (p : Params) : State :=
  { pc := p.entryPc
    regs := Vector.ofFn fun r : Fin 32 =>
      if h : r.val = 0 then 0#64 else p.initRegs.get ⟨r.val - 1, by omega⟩
    mem := { size := p.memSize, cells := p.initMem }
    outputPort := p.outputPort
    sinkAttached := true
    trace := [] }

/-- The machine right after reset: reset is construction (R290), so it is the launch state of the values named in
`resetParams` (log entries 1 to 6). -/
def State.reset : State := State.launch resetParams

end Sys2Proof.Machine
end

