-- ==== Sys2Proof/Machine/Ops.lean ====
section
/-! DEFINITION. The named operations over registers, memory, the output sink and the step protocol, which the
meanings of the instructions call. -/

namespace Sys2Proof.Machine

/-- What a meaning or a step answers. -/
abbrev Result := Host.Outcome State Fault Refusal

/-! ## Registers (R13, R21, R23) -/

/-- The stored pattern of a register. -/
def State.readReg (s : State) (r : Reg) : Word := s.regs.get r

/-- A write to a register, register 0 included: "the write is performed and then undone by the post-step forcing"
(R13). -/
def State.writeReg (s : State) (r : Reg) (v : Word) : State := { s with regs := s.regs.set r.val v r.isLt }

/-- R171, R176: force register 0 to zero. -/
def State.forceZero (s : State) : State := s.writeReg 0 0

/-- What an instruction reads from a register of a state at a step boundary: x0 is 0 whatever is stored (R23, R41). -/
def State.x (s : State) (r : Reg) : Word := if r = 0 then 0 else s.readReg r

/-! ## Memory (R14, R36, R50) -/

/-- What an address of the buffer that memory does not list reads as. DESIGN CHOICE (log entry 5): zero. Every
content of the buffer is some list of cells, so it fixes only what the empty list stands for. -/
def fillByte : Byte := 0#8

/-- The byte a list of cells gives an address. -/
def cellsGet : List Host.Cell → Nat → Byte
  | [], _ => fillByte
  | (k, b) :: rest, a => if k = a then b else cellsGet rest a

/-- Put a byte at an address, in the canonical form: cells rise, and none holds `fillByte`. -/
def cellsPut : List Host.Cell → Nat → Byte → List Host.Cell
  | [], a, v => if v = fillByte then [] else [(a, v)]
  | (k, b) :: rest, a, v =>
    if a < k then (if v = fillByte then (k, b) :: rest else (a, v) :: (k, b) :: rest)
    else if a = k then (if v = fillByte then rest else (a, v) :: rest)
    else (k, b) :: cellsPut rest a v

/-- The canonical form: addresses strictly rising, inside the buffer, no cell equal to what an unlisted address
reads as; and the capacity within the bound of R6. -/
abbrev Memory.wf (m : Memory) : Prop :=
  m.cells.Pairwise (fun c d => c.1 < d.1) ∧ (∀ c ∈ m.cells, c.1 < m.size ∧ c.2 ≠ fillByte) ∧ m.size ≤ maxMemSize

/-- `memory[a]` for an address of the buffer (R50). -/
def Memory.byteAt (m : Memory) (a : Nat) : Byte := cellsGet m.cells a

/-- `MemRead(addr, 1)` (R14); none when the address is outside the buffer (R61). -/
def Memory.read1 (m : Memory) (addr : Word) : Option Byte :=
  if addr.toNat < m.size then some (m.byteAt addr.toNat) else none

/-- `MemRead(addr, 4)` (R14): little-endian, the end computed without wrap; none when a byte is outside. -/
def Memory.read4 (m : Memory) (addr : Word) : Option InstrWord :=
  let a := addr.toNat
  if a + 4 ≤ m.size then some (assemble (m.byteAt a) (m.byteAt (a + 1)) (m.byteAt (a + 2)) (m.byteAt (a + 3))) else none

/-- The buffer with the byte at `a` replaced (R62: exactly one byte). -/
def Memory.put (m : Memory) (a : Nat) (v : Byte) : Memory := { m with cells := cellsPut m.cells a v }

/-- `MemWrite(addr, 1, v)` (R14); none when the address is outside the buffer (R61). -/
def Memory.write1 (m : Memory) (addr : Word) (v : Byte) : Option Memory :=
  if addr.toNat < m.size then some (m.put addr.toNat v) else none

/-- The state with another content of memory. -/
def State.setMem (s : State) (m : Memory) : State := { s with mem := m }

/-- The bytes in order from address `a`; the Loader's byte copy (R291). -/
def cellsPutAll : List Host.Cell → Nat → List Byte → List Host.Cell
  | cells, _, [] => cells
  | cells, a, b :: rest => cellsPutAll (cellsPut cells a b) (a + 1) rest

/-- A load of one byte at `ea`, or `AccessFault(ea)` (R61). -/
def State.loadByte (s : State) (ea : Word) (k : Byte → Result) : Result :=
  match s.mem.read1 ea with
  | some b => k b
  | none => .fault (.accessFault ea)

/-- One event appended to the output trace (R15). -/
def State.emit (s : State) (b : Byte) (addr : Word) : State :=
  { s with trace := s.trace ++ [{ byte := b, addr := addr }] }

/-- `Output(byte, addr)` (R15, R63). With no sink attached the spec gives no meaning (U16, D11). -/
def State.output (s : State) (b : Byte) (addr : Word) : Result :=
  if s.sinkAttached then .next (s.emit b addr) else .refused .noOutputSink

/-- A store of one byte at `ea` with the output-port redirection: the port test first, then the range (R63, R64). -/
def State.storeByte (s : State) (ea : Word) (b : Byte) : Result :=
  if ea = s.outputPort then s.output b ea
  else match s.mem.write1 ea b with
    | some m => .next (s.setMem m)
    | none => .fault (.accessFault ea)

/-! ## The program counter (R27, R175, R180) -/

/-- `instruction.size` of every instruction that reaches a handler (R180). -/
def instrSize : Word := 4

/-- `pc <- v`. -/
def State.setPc (s : State) (v : Word) : State := { s with pc := v }

/-- The generic advance: `pc <- pc + size` (R175). -/
def State.advance (s : State) : State := s.setPc (s.pc + instrSize)

/-! ## The step protocol (R171 to R176, R181) -/

/-- Protocol steps 4 and 5: the generic advance when the control-transfer flag is clear, then the forcing (R175,
R176). -/
def State.complete (ct : Bool) (s : State) : State := (if ct then s else s.advance).forceZero

/-- The protocol around a handler: force register 0, run the handler, advance and force. A handler that fails ends
the step at once (R175, R177). -/
def protocol (ct : Bool) (handler : State → Result) (s : State) : Result :=
  match handler s.forceZero with
  | .next t => .next (t.complete ct)
  | .fault f => .fault f
  | .refused r => .refused r

/-- The protocol of an instruction whose control-transfer flag is clear. -/
def runPlain (handler : State → Result) (s : State) : Result := protocol false handler s

/-- The protocol of an instruction whose control-transfer flag is set. -/
def runTransfer (handler : State → Result) (s : State) : Result := protocol true handler s

/-! ## Failing (R177, R251 to R253) -/

/-- The state after a failed step: nothing changes except that `x[0] = 0` (R177, D26). It is the one thing a failure
does; nothing is saved, no mode changes and control goes nowhere (R255, R259), and there is no return from it (R261). -/
def State.abort (s : State) : State := s.forceZero

end Sys2Proof.Machine
end

