-- ==== Sys2Proof/Machine/Operands.lean ====
section
/-! DEFINITION. The operand values and addresses the instructions compute. All additions are modulo 2^64 (R11,
R29, R58, R212). -/

namespace Sys2Proof.Machine

/-- The one addressing mode: base register plus sign-extended immediate (R58, R232). -/
def State.effAddr (s : State) (rs1 : Reg) (imm : Word) : Word := s.readReg rs1 + imm

/-- The link value `pc + size` of JAL and JALR (R190, R191). -/
def State.linkValue (s : State) : Word := s.pc + instrSize

/-- The pc-relative target of JAL and a taken BLT; the immediate is not shifted again (R190, R220). -/
def State.relTarget (s : State) (imm : Word) : Word := s.pc + imm

/-- The JALR target: bit 0 cleared after the addition (R191). -/
def State.indirectTarget (s : State) (rs1 : Reg) (imm : Word) : Word := (s.readReg rs1 + imm) &&& ~~~1#64

/-- LUI re-applies the shift its decoding undid (R147, R200). -/
def upperValue (imm : Word) : Word := imm <<< 12

/-- The low byte of a register, the value SB stores (R231). -/
def lowByte (v : Word) : Byte := v.extractLsb' 0 8

end Sys2Proof.Machine
end

