-- ==== Sys2Proof/Machine/Arith.lean ====
section
/-! DEFINITION. Integer arithmetic: ADDI, ADD (spec/44_integer_arith.md). -/

namespace Sys2Proof.Machine

/-- R210: `x[rd] <- x[rs1] + imm`. -/
def execAddi (rd rs1 : Reg) (imm : Word) (s : State) : Result :=
  runPlain (fun s => .next (s.writeReg rd (s.readReg rs1 + imm))) s

/-- R211: `x[rd] <- x[rs1] + x[rs2]`. -/
def execAdd (rd rs1 rs2 : Reg) (s : State) : Result :=
  runPlain (fun s => .next (s.writeReg rd (s.readReg rs1 + s.readReg rs2))) s

end Sys2Proof.Machine
end

