-- ==== Sys2Proof/Machine/Flags.lean ====
section
/-! DEFINITION. The hardware has no flags and no condition codes (R32 of spec/10_state.md): no instruction computes
one. What stands here is the one condition an instruction tests. -/

namespace Sys2Proof.Machine

/-- `a <s b`: less than on the operands read as `i64` (R11, R220). -/
def lessThanSigned (a b : Word) : Bool := decide (a.toInt < b.toInt)

end Sys2Proof.Machine
end

