-- ==== Sys2Proof/Machine/Branch.lean ====
section
/-! DEFINITION. The conditional branch: BLT (spec/45_branch.md). -/

namespace Sys2Proof.Machine

/-- R220: `pc <- pc + imm` when `x[rs1] <s x[rs2]`, else `pc <- pc + 4`; the handler writes both. -/
def execBlt (rs1 rs2 : Reg) (imm : Word) (s : State) : Result :=
  runTransfer (fun s =>
    .next (s.setPc (if lessThanSigned (s.readReg rs1) (s.readReg rs2) then s.relTarget imm else s.pc + instrSize))) s

end Sys2Proof.Machine
end

