-- ==== Sys2Proof/Machine/Jump.lean ====
section
/-! DEFINITION. Unconditional jumps: JAL, JALR (spec/42_jumps.md). Both read everything before they write (R13). -/

namespace Sys2Proof.Machine

/-- R190: `x[rd] <- pc + 4`, `pc <- pc + imm`. -/
def execJal (rd : Reg) (imm : Word) (s : State) : Result :=
  runTransfer (fun s => .next ((s.writeReg rd s.linkValue).setPc (s.relTarget imm))) s

/-- R191: `x[rd] <- pc + 4`, `pc <- (x[rs1] + imm) & ~1`, the target from the old `x[rs1]` (D13). -/
def execJalr (rd rs1 : Reg) (imm : Word) (s : State) : Result :=
  runTransfer (fun s => .next ((s.writeReg rd s.linkValue).setPc (s.indirectTarget rs1 imm))) s

end Sys2Proof.Machine
end

