-- ==== Sys2Proof/Machine/LoadStore.lean ====
section
/-! DEFINITION. Load and store: LB, SB (spec/46_load_store.md). -/

namespace Sys2Proof.Machine

/-- R230: `x[rd] <- sext_8(memory[x[rs1] + imm])`, or AccessFault outside memory. The output port is no special
address for a load (R65). -/
def execLb (rd rs1 : Reg) (imm : Word) (s : State) : Result :=
  runPlain (fun s => s.loadByte (s.effAddr rs1 imm) fun b => .next (s.writeReg rd (sext b))) s

/-- R231: the low byte of `x[rs2]` to the output port or to `memory[x[rs1] + imm]`, or AccessFault. -/
def execSb (rs1 rs2 : Reg) (imm : Word) (s : State) : Result :=
  runPlain (fun s => s.storeByte (s.effAddr rs1 imm) (lowByte (s.readReg rs2))) s

end Sys2Proof.Machine
end

