-- ==== Sys2Proof/Machine/Upper.lean ====
section
/-! DEFINITION. Upper-immediate instructions: LUI, AUIPC (spec/43_upper_immediate.md). -/

namespace Sys2Proof.Machine

/-- R200: `x[rd] <- imm << 12`, `imm` the plain field. -/
def execLui (rd : Reg) (imm : Word) (s : State) : Result :=
  runPlain (fun s => .next (s.writeReg rd (upperValue imm))) s

/-- R201: `x[rd] <- pc + imm`, `imm` the shifted form, not shifted again; `pc` is this instruction's address. -/
def execAuipc (rd : Reg) (imm : Word) (s : State) : Result :=
  runPlain (fun s => .next (s.writeReg rd (s.pc + imm))) s

end Sys2Proof.Machine
end

