-- ==== Sys2Proof/Machine/Fetch.lean ====
section
/-! DEFINITION. Instruction fetch (R59, R60 of spec/20_memory.md): the admission test and the Decoder's reading of
memory at an offset (R7, R158). -/

namespace Sys2Proof.Machine

/-- R60: `0 <= pc` and `pc < MEM_SIZE`, and `pc + 4 <= MEM_SIZE` when the byte at `pc` starts a 4-byte instruction.
`pc` is read as `i64` for the first test (C8) and the sum is computed without wrap. -/
def State.fetchAdmitted (s : State) : Bool :=
  decide (0 ≤ s.pc.toInt) && decide (s.pc.toNat < s.mem.size) &&
    (!isFourByte (s.mem.byteAt s.pc.toNat) || decide (s.pc.toNat + 4 ≤ s.mem.size))

/-- `decode(memory, offset)` (R7, R158). Bytes that do not exist are never looked at behind `fetchAdmitted`. -/
def decodeAt (m : Memory) (offset : Word) : Record :=
  let a := offset.toNat
  decodeBytes (m.byteAt a) (m.byteAt (a + 1)) (m.byteAt (a + 2)) (m.byteAt (a + 3)) offset

/-- `fetch(state) = decode(state.memory, state.pc)` (R9, R59); none when the fetch is not admitted. Every fetch reads
memory as it is at that moment (R38, R72). -/
def State.fetch (s : State) : Option Record :=
  if s.fetchAdmitted then some (decodeAt s.mem s.pc) else none

end Sys2Proof.Machine
end

