-- ==== Sys2Proof/Machine/Engine.lean ====
section
/-! DEFINITION. The Engine's `step(state, instruction)` (R8, R170) and the core step over it (R9, R181). -/

namespace Sys2Proof.Machine

/-- `step(state, instruction)` (R170): an id with no handler is IllegalInstruction and nothing of the record is
consulted (R172). A record whose address is not `pc` is given no meaning (R9, D21; log entry 12).
DESIGN CHOICE, log entry 19: a record whose address is `pc` but which is not the one fetched there (of other bytes, or
one no decoding makes, with a control-transfer flag or a size that does not fit its id) is run by its id and slots, its
flags and size ignored. The spec defines the step for the fetched record only, and `coreStep` passes no other. -/
def engineStep (r : Record) (s : State) : Result :=
  if r.address = s.pc then
    match r.toInstr with
    | some i => exec i s
    | none => .fault .illegalInstruction
  else .refused .foreignRecord

/-- `CoreStep` (R9, R181): fetch admission, decoding, the Engine's step. -/
def coreStep (s : State) : Result :=
  match s.fetch with
  | some r => engineStep r s
  | none => .fault (.fetchFault s.pc)

end Sys2Proof.Machine
end

