-- ==== Sys2Proof/Machine/Loader.lean ====
section
/-! DEFINITION. The Loader as the CORE sees it (R291 of spec/70_reset_and_hazards.md): `pc = entry_pc` plus a byte
copy, all of it or nothing (R256). Reading a binary file is outside the CORE (R4). -/

namespace Sys2Proof.Machine

/-- What the Loader hands over: one code section, its mapped address, and the entry. -/
structure Image where
  address : Nat
  bytes : List Byte
  entry : Word
  deriving DecidableEq, Repr

/-- The loader's errors (R256). The first three come from reading a binary file, which is outside the CORE (R4). -/
inductive LoaderError where
  /-- `LoaderFormatError`. -/
  | formatError
  /-- `LoaderUnsupportedTarget`. -/
  | unsupportedTarget
  /-- `LoaderMissingSection`. -/
  | missingSection
  /-- `LoaderOverflow`: the section would not fit in the memory capacity at its mapped address. -/
  | overflow
  deriving DecidableEq, Repr

/-- The state after a load, or the error with nothing copied (R256, R291). No register is written (R291). -/
def State.load (s : State) (img : Image) : Except LoaderError State :=
  if img.address + img.bytes.length ≤ s.mem.size then
    .ok { s with
      pc := img.entry
      mem := { s.mem with cells := cellsPutAll s.mem.cells img.address img.bytes } }
  else .error .overflow

/-- The bytes of one instruction, loaded where the next fetch reads; unchanged when they have no place there. -/
def State.loadAtPc (s : State) (bytes : List Byte) : State :=
  match s.load { address := s.pc.toNat, bytes := bytes, entry := s.pc } with
  | .ok t => t
  | .error _ => s

end Sys2Proof.Machine
end

