-- ==== Sys2Proof/Machine/Step.lean ====
section
/-! DEFINITION. One step of the machine, and the placing of one instruction word where the next step fetches. -/

namespace Sys2Proof.Machine

/-- One step: `CoreStep` (R9, R181). -/
def step (s : State) : Host.Outcome State Fault Refusal := coreStep s

/-- `s` with an instruction's four bytes loaded at `pc` (log entry 9). -/
def State.withFetchWord (s : State) (nbits w : Nat) : State :=
  s.loadAtPc (wordBytes (BitVec.ofNat 32 (w % 2 ^ nbits)))

end Sys2Proof.Machine
end

