-- ==== Sys2Proof/Machine/Formatter.lean ====
section
/-! DEFINITION. The Formatter's contract (R120, R123 of spec/30_encoding.md): which template a record renders by and
what fills it. The Formatter is outside the CORE (R4) and the spec gives no text, so a rendering is data. -/

namespace Sys2Proof.Machine

/-- The three field templates and the sentinel (R120, R123). The id stands for its canonical mnemonic. -/
inductive Rendering where
  | threeRegisters (mnemonic : InstrId) (a b c : Reg)
  | twoRegistersImmediate (mnemonic : InstrId) (a b : Reg) (imm : Word)
  | oneRegisterImmediate (mnemonic : InstrId) (a : Reg) (imm : Word)
  | sentinel
  deriving DecidableEq, Repr

/-- `format(instruction)`: derived from `id` and `flags` alone, with the Engine's reading of the slots (R120). -/
def format (r : Record) : Rendering :=
  if r.id = .unknown ∨ r.id = .invalid then .sentinel
  else if r.flags.fmtR then .threeRegisters r.id (slotReg r.slot0) (slotReg r.slot1) (slotReg r.slot2)
  else if r.flags.fmtI ∨ r.flags.fmtS ∨ r.flags.fmtB then
    .twoRegistersImmediate r.id (slotReg r.slot0) (slotReg r.slot1) r.slot2
  else if r.flags.fmtU ∨ r.flags.fmtJ then .oneRegisterImmediate r.id (slotReg r.slot0) r.slot1
  else .sentinel

end Sys2Proof.Machine
end

