-- ==== Sys2Proof/Machine/HostOps.lean ====
section
/-! DEFINITION. The Host Interface (R270 of spec/60_exceptions.md): `get_pc`, `get_register` and `step() -> status`
with the state it leaves, and `load(binary) -> status`. The output callback is the trace. -/

namespace Sys2Proof.Machine

/-- `get_pc() -> u64`: the same 64 bits (R31). -/
def State.getPc (s : State) : Word := s.pc

/-- `get_register(index)`, `index` 0 to 31 (R270, C7). -/
def State.getRegister (s : State) (index : Reg) : Word := s.readReg index

/-- The status of the host's `step()` (R270): the outcome, without the state. -/
inductive Status where
  /-- `Continue` (R250). -/
  | completed
  /-- One of the failure outcomes (R251 to R253). -/
  | failed (f : Fault)
  /-- Given no meaning by the spec (U16, U21). -/
  | refused (r : Refusal)
  deriving DecidableEq, Repr

/-- The host's `step()`: the state left in its hand and the status. A failure leaves the state of `State.abort` (R177,
R181); a refusal gives no state, so the state is shown unchanged. -/
def hostStep (s : State) : State × Status :=
  match step s with
  | .next t => (t, .completed)
  | .fault f => (s.abort, .failed f)
  | .refused r => (s, .refused r)

/-- The host's `load(binary)`: `parsed` is what reading the file gave, one section or an error of its own. A load that
fails copies nothing (R256). -/
def hostLoad (parsed : Except LoaderError Image) (s : State) : State × Except LoaderError Unit :=
  match parsed with
  | .error e => (s, .error e)
  | .ok img =>
    match s.load img with
    | .ok t => (t, .ok ())
    | .error e => (s, .error e)

end Sys2Proof.Machine
end

