-- ==== Sys2Proof/Safety.lean ====
section
/-! DEFINITION. The words the claims are made in: what a step keeps, what each instruction writes (R24, R27), when a
run has ended (R273), and the invariants. -/

namespace Sys2Proof.Machine

/-! ## What the bytes at pc are -/

/-- What the Decoder reads at `pc`. -/
def State.fetchedInstr (s : State) : Decoded :=
  let a := s.pc.toNat
  decodeInstr (s.mem.byteAt a) (s.mem.byteAt (a + 1)) (s.mem.byteAt (a + 2)) (s.mem.byteAt (a + 3))

/-- The next step runs `i`: the fetch is admitted and the bytes are `i`. -/
def State.runs (s : State) (i : Instr) : Prop := s.fetchAdmitted = true ∧ s.fetchedInstr = .ok i

/-! ## Frames -/

/-- Register `rd` holds `v` afterwards; x0 holds 0 whatever was written to it (R23). -/
def RegWritten (rd : Reg) (v : Word) (t : State) : Prop := t.readReg rd = if rd = 0 then 0 else v

/-- Every register other than `rd` holds what an instruction read from it before (R23, R24). -/
def RegsKeptExcept (rd : Option Reg) (s t : State) : Prop := ∀ r : Reg, some r ≠ rd → t.readReg r = s.x r

/-- Every byte of memory reads as before, and the capacity is the same. -/
def MemoryKept (s t : State) : Prop := t.mem.size = s.mem.size ∧ ∀ a : Nat, t.mem.byteAt a = s.mem.byteAt a

/-- Every byte of memory but the one at `ea` reads as before, and the capacity is the same. -/
def MemoryKeptExcept (ea : Nat) (s t : State) : Prop :=
  t.mem.size = s.mem.size ∧ ∀ a : Nat, a ≠ ea → t.mem.byteAt a = s.mem.byteAt a

/-- The port address and the sink's attachment are as before. -/
def PortKept (s t : State) : Prop := t.outputPort = s.outputPort ∧ t.sinkAttached = s.sinkAttached

/-- The port, the sink and the output trace are as before. -/
def OutputKept (s t : State) : Prop := PortKept s t ∧ t.trace = s.trace

/-- Nothing is different except that `x[0] = 0`: what a failed step leaves (R177). -/
def UnchangedButZero (s t : State) : Prop :=
  t.pc = s.pc ∧ (∀ r : Reg, t.readReg r = s.x r) ∧ t.mem = s.mem ∧ OutputKept s t

/-! ## The tables of R24 and R27 -/

/-- The registers an instruction reads (R24). -/
def sourcesOf : Instr → List Reg
  | .jal _ _ => []
  | .jalr _ rs1 _ => [rs1]
  | .lui _ _ => []
  | .auipc _ _ => []
  | .addi _ rs1 _ => [rs1]
  | .add _ rs1 rs2 => [rs1, rs2]
  | .blt rs1 rs2 _ => [rs1, rs2]
  | .lb _ rs1 _ => [rs1]
  | .sb rs1 rs2 _ => [rs1, rs2]

/-- The register an instruction writes (R24). -/
def destOf : Instr → Option Reg
  | .jal rd _ => some rd
  | .jalr rd _ _ => some rd
  | .lui rd _ => some rd
  | .auipc rd _ => some rd
  | .addi rd _ _ => some rd
  | .add rd _ _ => some rd
  | .blt _ _ _ => none
  | .lb rd _ _ => some rd
  | .sb _ _ _ => none

/-- Whether the record of an instruction has the control-transfer flag (R153, R159 (h)). -/
def isTransfer : Instr → Bool
  | .jal _ _ => true
  | .jalr _ _ _ => true
  | .lui _ _ => false
  | .auipc _ _ => false
  | .addi _ _ _ => false
  | .add _ _ _ => false
  | .blt _ _ _ => true
  | .lb _ _ _ => false
  | .sb _ _ _ => false

/-- The new pc of an instruction that completes (R27). -/
def newPc (s : State) : Instr → Word
  | .jal _ imm => s.pc + imm
  | .jalr _ rs1 imm => (s.x rs1 + imm) &&& ~~~1#64
  | .lui _ _ => s.pc + 4
  | .auipc _ _ => s.pc + 4
  | .addi _ _ _ => s.pc + 4
  | .add _ _ _ => s.pc + 4
  | .blt rs1 rs2 imm => if (s.x rs1).toInt < (s.x rs2).toInt then s.pc + imm else s.pc + 4
  | .lb _ _ _ => s.pc + 4
  | .sb _ _ _ => s.pc + 4

/-- The output event of an instruction that completes, if it has one (R63, R231). -/
def outputOf (s : State) : Instr → List OutputEvent
  | .jal _ _ => []
  | .jalr _ _ _ => []
  | .lui _ _ => []
  | .auipc _ _ => []
  | .addi _ _ _ => []
  | .add _ _ _ => []
  | .blt _ _ _ => []
  | .lb _ _ _ => []
  | .sb rs1 rs2 imm =>
    if s.x rs1 + imm = s.outputPort then [{ byte := (s.x rs2).extractLsb' 0 8, addr := s.outputPort }] else []

/-- The data access an instruction makes is one the machine has: in range, or the port with a sink (R61, R63). -/
def accessAllowed (s : State) : Instr → Prop
  | .jal _ _ => True
  | .jalr _ _ _ => True
  | .lui _ _ => True
  | .auipc _ _ => True
  | .addi _ _ _ => True
  | .add _ _ _ => True
  | .blt _ _ _ => True
  | .lb _ rs1 imm => (s.x rs1 + imm).toNat < s.mem.size
  | .sb rs1 _ imm =>
    (s.x rs1 + imm = s.outputPort ∧ s.sinkAttached = true) ∨
      (s.x rs1 + imm ≠ s.outputPort ∧ (s.x rs1 + imm).toNat < s.mem.size)

/-! ## The end of a run (R273) -/

/-- A run has ended normally at `s`: the step completes and leaves the whole state unchanged, the output trace with
it (D29). -/
def State.endedNormally (s : State) : Prop := step s = .next s

/-- The four ways a control transfer can leave the state as it is (R273). -/
def selfLoop (s : State) : Instr → Prop
  | .jal rd imm => imm = 0 ∧ (rd = 0 ∨ s.readReg rd = s.pc + 4)
  | .jalr rd rs1 imm => (s.x rs1 + imm) &&& ~~~1#64 = s.pc ∧ (rd = 0 ∨ s.readReg rd = s.pc + 4)
  | .lui _ _ => False
  | .auipc _ _ => False
  | .addi _ _ _ => False
  | .add _ _ _ => False
  | .blt rs1 rs2 imm => imm = 0 ∧ (s.x rs1).toInt < (s.x rs2).toInt
  | .lb _ _ _ => False
  | .sb _ _ _ => False

/-- `k` steps of the machine behind the host's interface complete and end in `t`. -/
def runsTo (k : Nat) (s t : State) : Prop := Host.Core.run Sys2Proof.core k s = .next t

/-! ## The whole step as R181 writes it

A second transcription, from the pseudocode of each instruction and of `CoreStep`, over R158's whole decoder and with
the control-transfer flag and the size taken from the record. It is stated equal to the machine's step. -/

/-- `H[id]`: the handler of an instruction as its rule's pseudocode gives it, without the generic pc advance. -/
def handlerOf (i : Instr) (s : State) : Result :=
  match i with
  | .jal rd imm => .next ((s.writeReg rd (s.pc + 4)).setPc (s.pc + imm))
  | .jalr rd rs1 imm => .next ((s.writeReg rd (s.pc + 4)).setPc ((s.readReg rs1 + imm) &&& ~~~1#64))
  | .lui rd imm => .next (s.writeReg rd (imm <<< 12))
  | .auipc rd imm => .next (s.writeReg rd (s.pc + imm))
  | .addi rd rs1 imm => .next (s.writeReg rd (s.readReg rs1 + imm))
  | .add rd rs1 rs2 => .next (s.writeReg rd (s.readReg rs1 + s.readReg rs2))
  | .blt rs1 rs2 imm =>
    if (s.readReg rs1).toInt < (s.readReg rs2).toInt then .next (s.setPc (s.pc + imm)) else .next (s.setPc (s.pc + 4))
  | .lb rd rs1 imm =>
    let ea := s.readReg rs1 + imm
    if ea.toNat < s.mem.size then .next (s.writeReg rd ((s.mem.byteAt ea.toNat).signExtend 64))
    else .fault (.accessFault ea)
  | .sb rs1 rs2 imm =>
    let ea := s.readReg rs1 + imm
    let b := (s.readReg rs2).extractLsb' 0 8
    if ea = s.outputPort then
      if s.sinkAttached then .next { s with trace := s.trace ++ [{ byte := b, addr := ea }] } else .refused .noOutputSink
    else if ea.toNat < s.mem.size then
      .next { s with mem := { s.mem with cells := cellsPut s.mem.cells ea.toNat b } }
    else .fault (.accessFault ea)

/-- `CoreStep` in full (R181), with the state each outcome leaves. -/
def wholeStep (s : State) : State × Status :=
  let a := s.pc.toNat
  if ¬(0 ≤ s.pc.toInt ∧ a < s.mem.size) then (s.writeReg 0 0, .failed (.fetchFault s.pc))
  else if (s.mem.byteAt a).extractLsb' 0 2 = 0b11#2 ∧ a + 4 > s.mem.size then
    (s.writeReg 0 0, .failed (.fetchFault s.pc))
  else
    let ins := decodeWhole (s.mem.byteAt a) (s.mem.byteAt (a + 1)) (s.mem.byteAt (a + 2)) (s.mem.byteAt (a + 3)) s.pc
    let saved := s.writeReg 0 0
    match ins.toInstr with
    | none => (saved, .failed .illegalInstruction)
    | some i =>
      match handlerOf i saved with
      | .next t =>
        let advanced := if ins.flags.ct then t else t.setPc (t.pc + BitVec.ofNat 64 ins.size)
        (advanced.writeReg 0 0, .completed)
      | .fault f => (saved, .failed f)
      | .refused r => (s, .refused r)

/-! ## Invariants -/

/-- What holds at every step boundary: memory in its canonical form, and `x[0] = 0` (R23). -/
def State.Inv (s : State) : Prop := s.mem.wf ∧ s.readReg 0 = 0

/-- `pc` is even (R28). -/
def State.pcEven (s : State) : Prop := s.pc.toNat % 2 = 0

/-- The parameters are ones the spec admits, `INIT_MEM` listed in canonical form (R6). -/
def validParams (p : Params) : Prop := Memory.wf { size := p.memSize, cells := p.initMem }

end Sys2Proof.Machine
end

