-- ==== Sys2Proof/Certificates/Slice0/Obligations.lean ====
section
/-! DEFINITION. The statements for the provers, each with the rule of spec/ it formalises. In all of them `s.x r` is
what an instruction reads from register `r` (x0 reads 0), and every statement quantifies over the parameters
`MEM_SIZE` and `OUTPUT_PORT_ADDR`, which stand in the state. -/

open Sys2Proof Sys2Proof.Machine

/-! ## Extension, fields, immediates -/

/-- R12: `sext_N` and `zext_N`, as numbers and bit by bit. -/
def Obligations.SignAndZeroExtension : Prop :=
  ∀ (n : Nat) (v : BitVec (n + 1)), n + 1 ≤ 64 →
    (sext v).toInt = (if v.getLsbD n then (v.toNat : Int) - 2 ^ (n + 1) else v.toNat) ∧
    (∀ i, i ≤ n → (sext v).getLsbD i = v.getLsbD i) ∧
    (∀ i, n < i → i < 64 → (sext v).getLsbD i = v.getLsbD n) ∧
    (∀ i, i ≤ n → (zext v).getLsbD i = v.getLsbD i) ∧ (∀ i, n < i → (zext v).getLsbD i = false)

/-- The ranges of R90 to R95 over every word, the evenness of the byte offsets, and that the plain upper immediate is
the shifted one shifted right arithmetically by 12 (R94). -/
def Obligations.ImmediateRanges : Prop :=
  ∀ w : InstrWord,
    (-2048 ≤ (immI w).toInt ∧ (immI w).toInt ≤ 2047) ∧
    (-2048 ≤ (immS w).toInt ∧ (immS w).toInt ≤ 2047) ∧
    (-4096 ≤ (immB w).toInt ∧ (immB w).toInt ≤ 4094 ∧ (immB w).toInt % 2 = 0) ∧
    (-2 ^ 31 ≤ (immU w).toInt ∧ (immU w).toInt ≤ 2 ^ 31 - 4096 ∧ (immU w).toInt % 4096 = 0) ∧
    (-524288 ≤ (immU20 w).toInt ∧ (immU20 w).toInt ≤ 524287 ∧ immU20 w = (immU w).sshiftRight 12) ∧
    (-1048576 ≤ (immJ w).toInt ∧ (immJ w).toInt ≤ 1048574 ∧ (immJ w).toInt % 2 = 0)

/-- R96: the most positive, the most negative and the all-ones pattern of each of the six immediate kinds, and that
the sign bit of each is `w[31]`. -/
def Obligations.SignExtensionBoundaries : Prop :=
  ∀ w : InstrWord,
    ((w.extractLsb' 20 12 = 0x7FF#12 → (immI w).toInt = 2047) ∧
      (w.extractLsb' 20 12 = 0x800#12 → (immI w).toInt = -2048) ∧
      (w.extractLsb' 20 12 = 0xFFF#12 → (immI w).toInt = -1)) ∧
    ((w.extractLsb' 25 7 ++ w.extractLsb' 7 5 = 0x7FF#12 → (immS w).toInt = 2047) ∧
      (w.extractLsb' 25 7 ++ w.extractLsb' 7 5 = 0x800#12 → (immS w).toInt = -2048) ∧
      (w.extractLsb' 25 7 ++ w.extractLsb' 7 5 = 0xFFF#12 → (immS w).toInt = -1)) ∧
    ((w &&& 0xFE000F80#32 = 0x7E000F80#32 → (immB w).toInt = 4094) ∧
      (w &&& 0xFE000F80#32 = 0x80000000#32 → (immB w).toInt = -4096) ∧
      (w &&& 0xFE000F80#32 = 0xFE000F80#32 → (immB w).toInt = -2)) ∧
    ((w.extractLsb' 12 20 = 0x7FFFF#20 → (immU w).toInt = 2147479552 ∧ (immU20 w).toInt = 524287) ∧
      (w.extractLsb' 12 20 = 0x80000#20 → (immU w).toInt = -2147483648 ∧ (immU20 w).toInt = -524288) ∧
      (w.extractLsb' 12 20 = 0xFFFFF#20 → (immU w).toInt = -4096 ∧ (immU20 w).toInt = -1)) ∧
    ((w.extractLsb' 12 20 = 0x7FFFF#20 → (immJ w).toInt = 1048574) ∧
      (w.extractLsb' 12 20 = 0x80000#20 → (immJ w).toInt = -1048576) ∧
      (w.extractLsb' 12 20 = 0xFFFFF#20 → (immJ w).toInt = -2)) ∧
    (((immI w).toInt < 0 ↔ w.getLsbD 31 = true) ∧ ((immS w).toInt < 0 ↔ w.getLsbD 31 = true) ∧
      ((immB w).toInt < 0 ↔ w.getLsbD 31 = true) ∧ ((immU w).toInt < 0 ↔ w.getLsbD 31 = true) ∧
      ((immU20 w).toInt < 0 ↔ w.getLsbD 31 = true) ∧ ((immJ w).toInt < 0 ↔ w.getLsbD 31 = true))

/-! ## Decoding and encoding -/

/-- Words written out from the encodings of R84 to R100 (spec/95_test_vectors.md D-JAL-5, D-JALR-2, S1, D-AUIPC-3,
D-ADDI-2, D-ADD-1, S2, D-LB-4, D-SB-2, and the bytes of the source's fixture). -/
def Obligations.WrittenWordsDecode : Prop :=
  decodeInstrWord 0x001002EF#32 = .ok (.jal 5 2048) ∧
  decodeInstrWord 0xFFF280E7#32 = .ok (.jalr 1 5 (-1)) ∧
  decodeInstr 0x37#8 0xCC#8 0x03#8 0x00#8 = .ok (.lui 24 0x3C) ∧
  decodeInstrWord 0xFFFFF317#32 = .ok (.auipc 6 (-4096)) ∧
  decodeInstrWord 0xFFF28293#32 = .ok (.addi 5 5 (-1)) ∧
  decodeInstrWord 0x006283B3#32 = .ok (.add 7 5 6) ∧
  decodeInstrWord 0xFC62C6E3#32 = .ok (.blt 5 6 (-0x34)) ∧
  decodeInstrWord 0x80058503#32 = .ok (.lb 10 11 (-2048)) ∧
  decodeInstrWord 0xFEC50FA3#32 = .ok (.sb 10 12 (-1))

/-- Headline: decoding the four bytes of the encoding of a well-formed instruction gives it back, every operand at
every value the encoding admits. -/
def Obligations.DecodeOfEncodeIsIdentity : Prop :=
  ∀ i : Instr, i.wellFormed = true →
    decodeInstr (byteOf (encode i) 0) (byteOf (encode i) 1) (byteOf (encode i) 2) (byteOf (encode i) 3) = .ok i

/-- R159 (g) and (i): what decodes is well-formed and has one word only. -/
def Obligations.EncodeOfDecodeIsIdentity : Prop :=
  ∀ (b0 b1 b2 b3 : Byte) (i : Instr), decodeInstr b0 b1 b2 b3 = .ok i →
    i.wellFormed = true ∧ encode i = assemble b0 b1 b2 b3

/-- The walk over the tables of R136 to R152 is R158's whole function, on all bytes at every offset: the inference by
which the spec marks R158 as derived from R136 to R155. -/
def Obligations.TableWalkIsWholeDecoder : Prop :=
  ∀ (b0 b1 b2 b3 : Byte) (offset : Word), decodeBytes b0 b1 b2 b3 offset = decodeWhole b0 b1 b2 b3 offset

/-- R100: a word is the instruction whose row admits it, and the nine patterns are pairwise disjoint, so at most one row
admits a word. -/
def Obligations.OpcodeRowsAreDisjoint : Prop :=
  ∀ (w : InstrWord) (p : OpcodeRow), p ∈ opcodeRows → p.admits w = true →
    (∀ offset : Word, (decodeWord w offset).id = p.id) ∧
    ∀ q : OpcodeRow, q ∈ opcodeRows → q.admits w = true → p = q

/-- R159 (d): the id of the bytes is known exactly when a row of R100 admits their word, and it is that row's id. -/
def Obligations.KnownIdIffRowAdmits : Prop :=
  ∀ (b0 b1 b2 b3 : Byte) (offset : Word) (k : InstrId), k ≠ .unknown →
    ((decodeBytes b0 b1 b2 b3 offset).id = k ↔
      ∃ row ∈ opcodeRows, row.admits (assemble b0 b1 b2 b3) = true ∧ row.id = k)

/-- R159 (a), (b), (c), (e), (f), (h): size, id, address, format flag, register slots and control-transfer flag of every
record. -/
def Obligations.RecordProperties : Prop :=
  ∀ (b0 b1 b2 b3 : Byte) (offset : Word),
    let r := decodeBytes b0 b1 b2 b3 offset
    (r.bytesConsumed = r.size ∧ r.size = if isFourByte b0 then 4 else 2) ∧ r.id ≠ .invalid ∧ r.address = offset ∧
    (r.id ≠ .unknown → r.flags.formatCount = 1 ∧ r.flags.compressed = false ∧
      (r.flags.ct = true ↔ r.id = .jal ∨ r.id = .jalr ∨ r.id = .blt)) ∧
    (r.id = .unknown → r.flags.formatCount ≤ 1) ∧
    r.slot0.toNat ≤ 31 ∧
    ((r.flags.fmtR ∨ r.flags.fmtI ∨ r.flags.fmtS ∨ r.flags.fmtB) → r.slot1.toNat ≤ 31) ∧
    (r.flags.fmtR → r.slot2.toNat ≤ 31)

/-- R153, R134: the record of each of the nine instructions, all fields, with `size` 4 and `COMPRESSED` clear. -/
def Obligations.KnownRecords : Prop :=
  ∀ (w : InstrWord) (offset : Word),
    (w &&& 0x7F#32 = 0x6F#32 → decodeWord w offset =
      ⟨.jal, offset, 4, { fmtJ := true, ct := true }, 2, zext (rdOf w), immJ w, 0⟩) ∧
    (w &&& 0x707F#32 = 0x67#32 → decodeWord w offset =
      ⟨.jalr, offset, 4, { fmtI := true, ct := true }, 3, zext (rdOf w), zext (rs1Of w), immI w⟩) ∧
    (w &&& 0x7F#32 = 0x37#32 → decodeWord w offset =
      ⟨.lui, offset, 4, { fmtU := true }, 2, zext (rdOf w), immU20 w, 0⟩) ∧
    (w &&& 0x7F#32 = 0x17#32 → decodeWord w offset =
      ⟨.auipc, offset, 4, { fmtU := true }, 2, zext (rdOf w), immU w, 0⟩) ∧
    (w &&& 0x707F#32 = 0x13#32 → decodeWord w offset =
      ⟨.addi, offset, 4, { fmtI := true }, 3, zext (rdOf w), zext (rs1Of w), immI w⟩) ∧
    (w &&& 0xFE00707F#32 = 0x33#32 → decodeWord w offset =
      ⟨.add, offset, 4, { fmtR := true }, 3, zext (rdOf w), zext (rs1Of w), zext (rs2Of w)⟩) ∧
    (w &&& 0x707F#32 = 0x4063#32 → decodeWord w offset =
      ⟨.blt, offset, 4, { fmtB := true, ct := true }, 3, zext (rs1Of w), zext (rs2Of w), immB w⟩) ∧
    (w &&& 0x707F#32 = 0x3#32 → decodeWord w offset =
      ⟨.lb, offset, 4, { fmtI := true }, 3, zext (rdOf w), zext (rs1Of w), immI w⟩) ∧
    (w &&& 0x707F#32 = 0x23#32 → decodeWord w offset =
      ⟨.sb, offset, 4, { fmtS := true }, 3, zext (rs1Of w), zext (rs2Of w), immS w⟩)

/-- R154: the `Unknown` records of size 4, case by case; none has a handler (R172, for a record fetched at `pc`; that a
record of other bytes at `pc` fails alike is the model's choice, log entry 19). -/
def Obligations.UnknownRecords : Prop :=
  ∀ (w : InstrWord) (offset : Word),
    (op5Of w ∉ [0#5, 4#5, 5#5, 8#5, 12#5, 13#5, 24#5, 25#5, 27#5] → decodeWord w offset =
      ⟨.unknown, offset, 4, {}, 0, 0, 0, 0⟩) ∧
    (op5Of w ∈ [0#5, 4#5] → funct3Of w ≠ 0#3 → decodeWord w offset =
      ⟨.unknown, offset, 4, { fmtI := true }, 3, zext (rdOf w), zext (rs1Of w), immI w⟩) ∧
    (op5Of w = 8#5 → funct3Of w ≠ 0#3 → decodeWord w offset =
      ⟨.unknown, offset, 4, { fmtS := true }, 3, zext (rs1Of w), zext (rs2Of w), immS w⟩) ∧
    (op5Of w = 24#5 → funct3Of w ≠ 4#3 → decodeWord w offset =
      ⟨.unknown, offset, 4, { fmtB := true, ct := true }, 3, zext (rs1Of w), zext (rs2Of w), immB w⟩) ∧
    (op5Of w = 25#5 → funct3Of w ≠ 0#3 → decodeWord w offset =
      ⟨.unknown, offset, 4, { fmtI := true, ct := true }, 3, zext (rdOf w), zext (rs1Of w), immI w⟩) ∧
    (op5Of w = 12#5 → (funct3Of w ≠ 0#3 ∨ funct7Of w ≠ 0#7) → decodeWord w offset =
      ⟨.unknown, offset, 4, { fmtR := true }, 3, zext (rdOf w), zext (rs1Of w), zext (rs2Of w)⟩) ∧
    ((decodeWord w offset).id = .unknown → ∀ s : State, s.pc = offset →
      engineStep (decodeWord w offset) s = .fault .illegalInstruction)

/-- R155, R136: a first byte whose low two bits are not `0b11` gives the compressed record, whatever follows it,
and executing it is IllegalInstruction (R115, for a record fetched at `pc`; that one of other bytes at `pc` fails alike
is the model's choice, log entry 19). -/
def Obligations.CompressedRecord : Prop :=
  ∀ (b0 b1 b2 b3 : Byte) (offset : Word), b0.extractLsb' 0 2 ≠ 0b11#2 →
    decodeBytes b0 b1 b2 b3 offset = ⟨.unknown, offset, 2, { compressed := true }, 0, 0, 0, 0⟩ ∧
    (decodeBytes b0 b1 b2 b3 offset).bytesConsumed = 2 ∧
    ∀ s : State, s.pc = offset → engineStep (decodeBytes b0 b1 b2 b3 offset) s = .fault .illegalInstruction

/-- R110 to R113, R115: which bytes are rejected, each by the name of its rule; the conditions are those of the
rules and exclude each other. -/
def Obligations.RejectionsByRule : Prop :=
  ∀ b0 b1 b2 b3 : Byte,
    let w := assemble b0 b1 b2 b3
    (decodeInstr b0 b1 b2 b3 = .rejected .compressed ↔ b0.extractLsb' 0 2 ≠ 0b11#2) ∧
    (b0.extractLsb' 0 2 = 0b11#2 →
      (decodeInstr b0 b1 b2 b3 = .rejected .noTableEntry ↔
        op5Of w ∉ [0#5, 4#5, 5#5, 8#5, 12#5, 13#5, 24#5, 25#5, 27#5]) ∧
      (decodeInstr b0 b1 b2 b3 = .rejected .functionCode ↔
        (op5Of w ∈ [0#5, 4#5, 8#5, 12#5] ∧ funct3Of w ≠ 0#3) ∨ (op5Of w = 24#5 ∧ funct3Of w ≠ 4#3)) ∧
      (decodeInstr b0 b1 b2 b3 = .rejected .jalrFunctionCode ↔ op5Of w = 25#5 ∧ funct3Of w ≠ 0#3) ∧
      (decodeInstr b0 b1 b2 b3 = .rejected .addFunct7 ↔ op5Of w = 12#5 ∧ funct3Of w = 0#3 ∧ funct7Of w ≠ 0#7))

/-- The Formatter's templates by format class (R120), and the sentinel for everything else (R123). -/
def Obligations.FormatterTemplates : Prop :=
  ∀ (b0 b1 b2 b3 : Byte) (offset : Word),
    let r := decodeBytes b0 b1 b2 b3 offset
    match r.toInstr with
    | some (.jal rd imm) => format r = .oneRegisterImmediate .jal rd imm
    | some (.jalr rd rs1 imm) => format r = .twoRegistersImmediate .jalr rd rs1 imm
    | some (.lui rd imm) => format r = .oneRegisterImmediate .lui rd imm
    | some (.auipc rd imm) => format r = .oneRegisterImmediate .auipc rd imm
    | some (.addi rd rs1 imm) => format r = .twoRegistersImmediate .addi rd rs1 imm
    | some (.add rd rs1 rs2) => format r = .threeRegisters .add rd rs1 rs2
    | some (.blt rs1 rs2 imm) => format r = .twoRegistersImmediate .blt rs1 rs2 imm
    | some (.lb rd rs1 imm) => format r = .twoRegistersImmediate .lb rd rs1 imm
    | some (.sb rs1 rs2 imm) => format r = .twoRegistersImmediate .sb rs1 rs2 imm
    | none => format r = .sentinel

/-! ## Memory -/

/-- The memory primitives of R14. A write to a canonical memory reads back, changes no other byte and keeps the
capacity; that it keeps the canonical form is the model's own convention (log entry 5), no rule of the spec. -/
def Obligations.MemoryPrimitives : Prop :=
  ∀ (m : Memory) (addr : Word),
    (m.read1 addr = if addr.toNat + 1 ≤ m.size then some (m.byteAt addr.toNat) else none) ∧
    (addr.toNat + 4 ≤ m.size → ∃ w, m.read4 addr = some w ∧ w.extractLsb' 0 8 = m.byteAt addr.toNat ∧
      w.extractLsb' 8 8 = m.byteAt (addr.toNat + 1) ∧ w.extractLsb' 16 8 = m.byteAt (addr.toNat + 2) ∧
      w.extractLsb' 24 8 = m.byteAt (addr.toNat + 3)) ∧
    (m.size < addr.toNat + 4 → m.read4 addr = none) ∧
    (∀ v : Byte, addr.toNat < m.size → m.wf → ∃ m', m.write1 addr v = some m' ∧ m'.wf ∧ m'.size = m.size ∧
      m'.byteAt addr.toNat = v ∧ ∀ a, a ≠ addr.toNat → m'.byteAt a = m.byteAt a) ∧
    (∀ v : Byte, m.size ≤ addr.toNat → m.write1 addr v = none)

/-- Canonical memories with the same capacity and the same bytes are the same data (the model's own convention, log
entry 5). -/
def Obligations.CanonicalMemoriesAreEqual : Prop :=
  ∀ m n : Memory, m.wf → n.wf → m.size = n.size → (∀ a, m.byteAt a = n.byteAt a) → m = n

/-! ## Fetch -/

/-- R60, R252: a step ends in `FetchFault`, with the pc, exactly when the fetch is not admitted, and then the state is
unchanged except that `x[0] = 0`. -/
def Obligations.FetchFaultIffNotAdmitted : Prop :=
  ∀ (s : State) (p : Word),
    (step s = .fault (.fetchFault p) ↔
      p = s.pc ∧ ¬(0 ≤ s.pc.toInt ∧ s.pc.toNat < s.mem.size ∧
        ((s.mem.byteAt s.pc.toNat).extractLsb' 0 2 = 0b11#2 → s.pc.toNat + 4 ≤ s.mem.size))) ∧
    (step s = .fault (.fetchFault p) → UnchangedButZero s (hostStep s).1)

/-- R53, R82: the word of an admitted 4-byte fetch is little-endian, at any alignment of pc; and the source's fixture. -/
def Obligations.FetchIsLittleEndian : Prop :=
  assemble 0x37#8 0xCC#8 0x03#8 0x00#8 = 0x0003CC37#32 ∧
  ∀ s : State, s.fetchAdmitted = true → (s.mem.byteAt s.pc.toNat).extractLsb' 0 2 = 0b11#2 →
    ∃ w : InstrWord, s.fetch = some (decodeWord w s.pc) ∧
      w.extractLsb' 0 8 = s.mem.byteAt s.pc.toNat ∧ w.extractLsb' 8 8 = s.mem.byteAt (s.pc.toNat + 1) ∧
      w.extractLsb' 16 8 = s.mem.byteAt (s.pc.toNat + 2) ∧ w.extractLsb' 24 8 = s.mem.byteAt (s.pc.toNat + 3)

/-- R130: what is fetched depends on the pc and on the bytes read alone: one byte of a 2-byte instruction, four of a
4-byte one. Registers, port, trace and every other byte do not matter. -/
def Obligations.FetchReadsOnlyTheInstruction : Prop :=
  ∀ s t : State, s.pc = t.pc → s.fetchAdmitted = true → t.fetchAdmitted = true →
    s.mem.byteAt s.pc.toNat = t.mem.byteAt s.pc.toNat →
    (isFourByte (s.mem.byteAt s.pc.toNat) = true →
      ∀ k, 1 ≤ k → k < 4 → s.mem.byteAt (s.pc.toNat + k) = t.mem.byteAt (s.pc.toNat + k)) →
    s.fetch = t.fetch

/-- A step runs the decoded instruction: when the fetch is admitted and the bytes at the pc are `i`, the step is
`exec i` (R9, R181; the protocol around the handler is inside the meaning). -/
def Obligations.StepRunsDecodedInstruction : Prop :=
  ∀ (s : State) (i : Instr), s.fetchAdmitted = true → s.fetchedInstr = .ok i → step s = exec i s

/-- Placing a word for the next fetch runs it (log entry 9): the model's own loading of one instruction. -/
def Obligations.PlacedWordIsRunNext : Prop :=
  ∀ (s : State) (w : Nat) (i : Instr), s.mem.wf → s.pc.toNat + 4 ≤ s.mem.size →
    decodeTableWord 32 w = some i → step (s.withFetchWord 32 w) = exec i (s.withFetchWord 32 w)

/-! ## What each instruction does -/

/-- R190, JAL: encoding, decoded record, link, target, frame; it never fails. -/
def Obligations.JalLinksAndJumps : Prop :=
  (∀ (w : InstrWord) (offset : Word), w &&& 0x7F#32 = 0x6F#32 →
    decodeWord w offset = ⟨.jal, offset, 4, { fmtJ := true, ct := true }, 2, zext (rdOf w), immJ w, 0⟩ ∧
    decodeInstrWord w = .ok (.jal (fieldReg (rdOf w)) (immJ w)) ∧
    immJ w = sext (w.extractLsb' 31 1 ++ w.extractLsb' 12 8 ++ w.extractLsb' 20 1 ++ w.extractLsb' 21 10 ++ 0#1) ∧
    -1048576 ≤ (immJ w).toInt ∧ (immJ w).toInt ≤ 1048574 ∧ (immJ w).toInt % 2 = 0) ∧
  ∀ (rd : Reg) (imm : Word) (s : State), ∃ t, exec (.jal rd imm) s = .next t ∧
    t.pc = s.pc + imm ∧ RegWritten rd (s.pc + 4) t ∧ RegsKeptExcept (some rd) s t ∧ MemoryKept s t ∧ OutputKept s t

/-- R191, JALR: encoding, decoded record, link, target from the old base with bit 0 cleared, frame; it never fails. -/
def Obligations.JalrLinksAndJumps : Prop :=
  (∀ (w : InstrWord) (offset : Word),
    (w &&& 0x707F#32 = 0x67#32 →
      decodeWord w offset =
        ⟨.jalr, offset, 4, { fmtI := true, ct := true }, 3, zext (rdOf w), zext (rs1Of w), immI w⟩ ∧
      decodeInstrWord w = .ok (.jalr (fieldReg (rdOf w)) (fieldReg (rs1Of w)) (immI w)) ∧
      immI w = sext (w.extractLsb' 20 12) ∧ -2048 ≤ (immI w).toInt ∧ (immI w).toInt ≤ 2047) ∧
    (w &&& 0x7F#32 = 0x67#32 → funct3Of w ≠ 0b000#3 → (decodeWord w offset).id = .unknown)) ∧
  ∀ (rd rs1 : Reg) (imm : Word) (s : State), ∃ t, exec (.jalr rd rs1 imm) s = .next t ∧
    t.pc = (s.x rs1 + imm) &&& ~~~1#64 ∧ RegWritten rd (s.pc + 4) t ∧ RegsKeptExcept (some rd) s t ∧
    MemoryKept s t ∧ OutputKept s t

/-- R200, LUI: encoding, decoded record, result (which is `sext_32` of the word's field over twelve zeros), frame. -/
def Obligations.LuiLoadsUpperField : Prop :=
  (∀ (w : InstrWord) (offset : Word), w &&& 0x7F#32 = 0x37#32 →
    decodeWord w offset = ⟨.lui, offset, 4, { fmtU := true }, 2, zext (rdOf w), immU20 w, 0⟩ ∧
    decodeInstrWord w = .ok (.lui (fieldReg (rdOf w)) (immU20 w)) ∧
    immU20 w = sext (w.extractLsb' 12 20) ∧
    immU20 w <<< 12 = sext (w.extractLsb' 12 20 ++ 0#12)) ∧
  ∀ (rd : Reg) (imm : Word) (s : State), ∃ t, exec (.lui rd imm) s = .next t ∧
    t.pc = s.pc + 4 ∧ RegWritten rd (imm <<< 12) t ∧ RegsKeptExcept (some rd) s t ∧ MemoryKept s t ∧ OutputKept s t

/-- R201, AUIPC: encoding, decoded record (the shifted form), the sum with this instruction's own address, frame. -/
def Obligations.AuipcAddsUpperFieldToPc : Prop :=
  (∀ (w : InstrWord) (offset : Word), w &&& 0x7F#32 = 0x17#32 →
    decodeWord w offset =
      ⟨.auipc, offset, 4, { fmtU := true }, 2, zext (rdOf w), sext (w.extractLsb' 12 20 ++ 0#12), 0⟩ ∧
    decodeInstrWord w = .ok (.auipc (fieldReg (rdOf w)) (sext (w.extractLsb' 12 20 ++ 0#12)))) ∧
  ∀ (rd : Reg) (imm : Word) (s : State), ∃ t, exec (.auipc rd imm) s = .next t ∧
    t.pc = s.pc + 4 ∧ RegWritten rd (s.pc + imm) t ∧ RegsKeptExcept (some rd) s t ∧ MemoryKept s t ∧ OutputKept s t

/-- R210, ADDI: encoding, decoded record, the sum modulo 2^64, frame; it never fails. -/
def Obligations.AddiAddsImmediate : Prop :=
  (∀ (w : InstrWord) (offset : Word),
    (w &&& 0x707F#32 = 0x13#32 →
      decodeWord w offset = ⟨.addi, offset, 4, { fmtI := true }, 3, zext (rdOf w), zext (rs1Of w), immI w⟩ ∧
      decodeInstrWord w = .ok (.addi (fieldReg (rdOf w)) (fieldReg (rs1Of w)) (immI w)) ∧
      immI w = sext (w.extractLsb' 20 12) ∧ -2048 ≤ (immI w).toInt ∧ (immI w).toInt ≤ 2047) ∧
    (w &&& 0x7F#32 = 0x13#32 → funct3Of w ≠ 0b000#3 → (decodeWord w offset).id = .unknown)) ∧
  ∀ (rd rs1 : Reg) (imm : Word) (s : State), ∃ t, exec (.addi rd rs1 imm) s = .next t ∧
    t.pc = s.pc + 4 ∧ RegWritten rd (s.x rs1 + imm) t ∧ RegsKeptExcept (some rd) s t ∧ MemoryKept s t ∧ OutputKept s t

/-- R211, ADD: encoding, decoded record, the sum modulo 2^64, frame; it never fails. -/
def Obligations.AddAddsRegisters : Prop :=
  (∀ (w : InstrWord) (offset : Word), w &&& 0xFE00707F#32 = 0x33#32 →
    decodeWord w offset = ⟨.add, offset, 4, { fmtR := true }, 3, zext (rdOf w), zext (rs1Of w), zext (rs2Of w)⟩ ∧
    decodeInstrWord w = .ok (.add (fieldReg (rdOf w)) (fieldReg (rs1Of w)) (fieldReg (rs2Of w)))) ∧
  ∀ (rd rs1 rs2 : Reg) (s : State), ∃ t, exec (.add rd rs1 rs2) s = .next t ∧
    t.pc = s.pc + 4 ∧ RegWritten rd (s.x rs1 + s.x rs2) t ∧ RegsKeptExcept (some rd) s t ∧ MemoryKept s t ∧
    OutputKept s t

/-- R220, BLT: encoding, decoded record, both paths, frame; no register is written and it never fails. -/
def Obligations.BltBranchesOnSignedLess : Prop :=
  (∀ (w : InstrWord) (offset : Word), w &&& 0x707F#32 = 0x4063#32 →
    decodeWord w offset =
      ⟨.blt, offset, 4, { fmtB := true, ct := true }, 3, zext (rs1Of w), zext (rs2Of w), immB w⟩ ∧
    decodeInstrWord w = .ok (.blt (fieldReg (rs1Of w)) (fieldReg (rs2Of w)) (immB w)) ∧
    immB w = sext (w.extractLsb' 31 1 ++ w.extractLsb' 7 1 ++ w.extractLsb' 25 6 ++ w.extractLsb' 8 4 ++ 0#1) ∧
    -4096 ≤ (immB w).toInt ∧ (immB w).toInt ≤ 4094 ∧ (immB w).toInt % 2 = 0) ∧
  ∀ (rs1 rs2 : Reg) (imm : Word) (s : State), ∃ t, exec (.blt rs1 rs2 imm) s = .next t ∧
    t.pc = (if (s.x rs1).toInt < (s.x rs2).toInt then s.pc + imm else s.pc + 4) ∧ RegsKeptExcept none s t ∧
    MemoryKept s t ∧ OutputKept s t

/-- R230, LB: encoding, decoded record; in range the sign-extended byte and the frame, outside memory
`AccessFault(ea)`. No address is special to a load, the port's among them. -/
def Obligations.LbLoadsSignExtendedByte : Prop :=
  (∀ (w : InstrWord) (offset : Word), w &&& 0x707F#32 = 0x3#32 →
    decodeWord w offset = ⟨.lb, offset, 4, { fmtI := true }, 3, zext (rdOf w), zext (rs1Of w), immI w⟩ ∧
    decodeInstrWord w = .ok (.lb (fieldReg (rdOf w)) (fieldReg (rs1Of w)) (immI w)) ∧
    immI w = sext (w.extractLsb' 20 12) ∧ -2048 ≤ (immI w).toInt ∧ (immI w).toInt ≤ 2047) ∧
  ∀ (rd rs1 : Reg) (imm : Word) (s : State),
    ((s.x rs1 + imm).toNat < s.mem.size → ∃ t, exec (.lb rd rs1 imm) s = .next t ∧ t.pc = s.pc + 4 ∧
      RegWritten rd (sext (s.mem.byteAt (s.x rs1 + imm).toNat)) t ∧ RegsKeptExcept (some rd) s t ∧
      MemoryKept s t ∧ OutputKept s t) ∧
    (s.mem.size ≤ (s.x rs1 + imm).toNat → exec (.lb rd rs1 imm) s = .fault (.accessFault (s.x rs1 + imm)))

/-- R231, SB: encoding, decoded record; at the port one output event and no memory byte changed (with a sink
attached, R37), elsewhere in range exactly one byte stored, outside memory `AccessFault(ea)`. -/
def Obligations.SbStoresLowByteOrOutputs : Prop :=
  (∀ (w : InstrWord) (offset : Word), w &&& 0x707F#32 = 0x23#32 →
    decodeWord w offset = ⟨.sb, offset, 4, { fmtS := true }, 3, zext (rs1Of w), zext (rs2Of w), immS w⟩ ∧
    decodeInstrWord w = .ok (.sb (fieldReg (rs1Of w)) (fieldReg (rs2Of w)) (immS w)) ∧
    immS w = sext (w.extractLsb' 25 7 ++ w.extractLsb' 7 5) ∧ -2048 ≤ (immS w).toInt ∧ (immS w).toInt ≤ 2047) ∧
  ∀ (rs1 rs2 : Reg) (imm : Word) (s : State),
    (s.x rs1 + imm = s.outputPort → s.sinkAttached = true → ∃ t, exec (.sb rs1 rs2 imm) s = .next t ∧
      t.pc = s.pc + 4 ∧ t.trace = s.trace ++ [{ byte := (s.x rs2).extractLsb' 0 8, addr := s.x rs1 + imm }] ∧
      RegsKeptExcept none s t ∧ MemoryKept s t ∧ PortKept s t) ∧
    (s.x rs1 + imm ≠ s.outputPort → (s.x rs1 + imm).toNat < s.mem.size → s.mem.wf →
      ∃ t, exec (.sb rs1 rs2 imm) s = .next t ∧ t.pc = s.pc + 4 ∧
        t.mem.byteAt (s.x rs1 + imm).toNat = (s.x rs2).extractLsb' 0 8 ∧
        MemoryKeptExcept (s.x rs1 + imm).toNat s t ∧ RegsKeptExcept none s t ∧ OutputKept s t) ∧
    (s.x rs1 + imm ≠ s.outputPort → s.mem.size ≤ (s.x rs1 + imm).toNat →
      exec (.sb rs1 rs2 imm) s = .fault (.accessFault (s.x rs1 + imm)))

/-- A port store with no sink attached is refused by name: the spec gives it no meaning (U16, decision D11; log
entry 6). -/
def Obligations.PortStoreWithoutSinkIsRefused : Prop :=
  ∀ (rs1 rs2 : Reg) (imm : Word) (s : State), s.x rs1 + imm = s.outputPort → s.sinkAttached = false →
    exec (.sb rs1 rs2 imm) s = .refused .noOutputSink

/-! ## Rules of the whole machine -/

/-- Every instruction completes in every state whose data access, if it makes one, is one the machine has. -/
def Obligations.EveryInstructionCompletes : Prop :=
  ∀ (i : Instr) (s : State), accessAllowed s i → ∃ t, exec i s = .next t

/-- R27: the control-transfer flag and the size of each instruction's record, the new pc of an instruction that
completes, and an unchanged pc after a failure. -/
def Obligations.PcFollowsTheTable : Prop :=
  (∀ (b0 b1 b2 b3 : Byte) (offset : Word) (i : Instr), decodeInstr b0 b1 b2 b3 = .ok i →
    (decodeBytes b0 b1 b2 b3 offset).flags.ct = isTransfer i ∧ (decodeBytes b0 b1 b2 b3 offset).size = 4) ∧
  (∀ (i : Instr) (s t : State), exec i s = .next t → t.pc = newPc s i) ∧
  ∀ (s : State) (f : Fault), (hostStep s).2 = .failed f → (hostStep s).1.pc = s.pc

/-- R181, which the spec marks derived: the host's step, state and status, is `CoreStep` as the spec writes it in full:
R158's whole decoder, the handlers' pseudocode, and the generic advance by the record's own flag and size. -/
def Obligations.StepIsWholeCoreStep : Prop :=
  ∀ s : State, hostStep s = wholeStep s

/-- R24: an instruction that completes writes no register but its destination, and reads x0 as 0. -/
def Obligations.OnlyTheDestinationRegisterChanges : Prop :=
  ∀ (i : Instr) (s t : State), exec i s = .next t → RegsKeptExcept (destOf i) s t

/-- R24: an instruction reads no register but its sources. A register that is not one of them, set to any value, changes
neither the outcome nor the pc, memory, trace or any other register; the destination too is the same. -/
def Obligations.OnlyTheSourceRegistersAreRead : Prop :=
  ∀ (i : Instr) (s : State) (r : Reg) (v : Word), r ∉ sourcesOf i →
    match exec i s with
    | .next t => ∃ u, exec i (s.writeReg r v) = .next u ∧ u.pc = t.pc ∧ u.mem = t.mem ∧ OutputKept t u ∧
        (∀ q, q ≠ r → u.readReg q = t.readReg q) ∧ (destOf i = some r → u.readReg r = t.readReg r)
    | .fault f => exec i (s.writeReg r v) = .fault f
    | .refused x => exec i (s.writeReg r v) = .refused x

/-- R57, R63, R231: a completed instruction changes a byte of memory only if it is SB, the byte is the one at its
effective address, in range, and that address is not the port. -/
def Obligations.OnlyStoresChangeMemory : Prop :=
  ∀ (i : Instr) (s t : State), exec i s = .next t → t.mem.size = s.mem.size ∧
    ∀ a : Nat, t.mem.byteAt a ≠ s.mem.byteAt a → ∃ rs1 rs2 imm, i = .sb rs1 rs2 imm ∧
      a = (s.x rs1 + imm).toNat ∧ s.x rs1 + imm ≠ s.outputPort ∧ a < s.mem.size

/-- R63, R69 (e): an output event occurs exactly when the instruction is SB to the port, and is appended. -/
def Obligations.OutputExactlyOnPortStores : Prop :=
  ∀ (i : Instr) (s t : State), exec i s = .next t → PortKept s t ∧ t.trace = s.trace ++ outputOf s i

/-- R176, R23: register 0 is zero after every step that completes, whatever it held before. -/
def Obligations.RegisterZeroAfterEveryStep : Prop :=
  (∀ (i : Instr) (s t : State), exec i s = .next t → t.readReg 0 = 0) ∧
  (∀ s t : State, step s = .next t → t.readReg 0 = 0) ∧
  ∀ (s : State) (f : Fault), (hostStep s).2 = .failed f → (hostStep s).1.readReg 0 = 0

/-- R41: what register 0 holds at launch is never read; the step is that of the state with register 0 forced. -/
def Obligations.StoredRegisterZeroIsNeverRead : Prop :=
  ∀ s : State, step s = step s.forceZero

/-- R179: at a step boundary the stored and forced register file is the one in which x0 reads 0 and a write to it is
dropped. -/
def Obligations.ForcingIsDroppingWrites : Prop :=
  ∀ (s : State) (rd r : Reg) (v : Word),
    ((s.forceZero.writeReg rd v).forceZero).readReg r = if r = 0 then 0 else if r = rd then v else s.x r

/-- R251, R172: a step ends in `IllegalInstruction` exactly when the admitted bytes are none of the nine, and then the
state is unchanged except that `x[0] = 0`. -/
def Obligations.IllegalInstructionIffUnknown : Prop :=
  ∀ s : State,
    (step s = .fault .illegalInstruction ↔ s.fetchAdmitted = true ∧ ∃ why, s.fetchedInstr = .rejected why) ∧
    (step s = .fault .illegalInstruction → UnchangedButZero s (hostStep s).1)

/-- R253, R61: a step ends in `AccessFault(ea)` exactly for an LB outside memory or an SB outside memory and off the
port, and then the state is unchanged except that `x[0] = 0`. -/
def Obligations.AccessFaultIffOutsideMemory : Prop :=
  ∀ (s : State) (ea : Word),
    (step s = .fault (.accessFault ea) ↔ s.mem.size ≤ ea.toNat ∧
      ((∃ rd rs1 imm, s.runs (.lb rd rs1 imm) ∧ ea = s.x rs1 + imm) ∨
        ∃ rs1 rs2 imm, s.runs (.sb rs1 rs2 imm) ∧ ea = s.x rs1 + imm ∧ ea ≠ s.outputPort)) ∧
    (step s = .fault (.accessFault ea) → UnchangedButZero s (hostStep s).1)

/-- With a sink attached no step is refused: it completes or ends in one of the three failures. Without one only the
port store is refused (D11, D21). -/
def Obligations.NoRefusalWithSinkAttached : Prop :=
  ∀ (s : State) (r : Refusal), step s = .refused r →
    s.sinkAttached = false ∧ r = .noOutputSink ∧
      ∃ rs1 rs2 imm, s.runs (.sb rs1 rs2 imm) ∧ s.x rs1 + imm = s.outputPort

/-- R177, R260: after a failed step nothing has changed except that `x[0] = 0`. -/
def Obligations.FailureLeavesStateUnchanged : Prop :=
  ∀ (s : State) (f : Fault), (hostStep s).2 = .failed f → UnchangedButZero s (hostStep s).1

/-- R261: a failure is a fixed point: stepping the state it left gives the same state and the same outcome. -/
def Obligations.FailureIsFixedPoint : Prop :=
  ∀ (s : State) (f : Fault), (hostStep s).2 = .failed f → hostStep (hostStep s).1 = ((hostStep s).1, .failed f)

/-- R273: a run has ended normally, the step completing with the whole state unchanged, exactly at a control transfer
to its own address whose link is discarded or already in place. -/
def Obligations.NormalEndIsSelfLoop : Prop :=
  ∀ s : State, s.endedNormally ↔ s.readReg 0 = 0 ∧ ∃ i, s.runs i ∧ selfLoop s i

/-- R72: a store is seen by the next fetch with nothing in between. -/
def Obligations.StoreIsSeenByNextFetch : Prop :=
  ∀ (rs1 rs2 : Reg) (imm : Word) (s : State), s.mem.wf → s.x rs1 + imm ≠ s.outputPort →
    (s.x rs1 + imm).toNat < s.mem.size →
    ∃ t, exec (.sb rs1 rs2 imm) s = .next t ∧ (t.fetchAdmitted = true →
      let now := fun a : Nat =>
        if a = (s.x rs1 + imm).toNat then (s.x rs2).extractLsb' 0 8 else s.mem.byteAt a
      let p := (s.pc + 4).toNat
      t.fetch = some (decodeBytes (now p) (now (p + 1)) (now (p + 2)) (now (p + 3)) (s.pc + 4)))

/-- R69 (c), (d): a load right after a store to the same byte returns the byte stored, sign-extended. -/
def Obligations.LoadReturnsStoredByte : Prop :=
  ∀ (rd rs1 rs2 base : Reg) (imm off : Word) (s : State), s.mem.wf → s.x rs1 + imm ≠ s.outputPort →
    (s.x rs1 + imm).toNat < s.mem.size → s.x base + off = s.x rs1 + imm →
    ∃ t u, exec (.sb rs1 rs2 imm) s = .next t ∧ exec (.lb rd base off) t = .next u ∧
      RegWritten rd (sext ((s.x rs2).extractLsb' 0 8)) u

/-! ## Launch and load -/

/-- The launch state of R40 and R290 holds the parameters: `pc = ENTRY_PC`, x0 zero, x1 to x31 `INIT_REGS`, memory
`INIT_MEM` of capacity `MEM_SIZE`, an empty trace. That the sink is attached rests on R37's assumption (decision D11)
and on the model's choice (log entry 6). -/
def Obligations.LaunchHoldsTheParameters : Prop :=
  ∀ p : Params, (State.launch p).pc = p.entryPc ∧ (State.launch p).readReg 0 = 0 ∧
    (∀ (k : Nat) (h : k < 31), (State.launch p).readReg ⟨k + 1, by omega⟩ = p.initRegs.get ⟨k, h⟩) ∧
    (State.launch p).mem.size = p.memSize ∧ (∀ a, (State.launch p).mem.byteAt a = cellsGet p.initMem a) ∧
    (State.launch p).outputPort = p.outputPort ∧ (State.launch p).trace = [] ∧
    (State.launch p).sinkAttached = true

/-- R291, R256: a load sets pc and copies the section at its mapped address, changes nothing else, and fails when the
section would not fit; a load that fails, for whichever reason, leaves the state as it was. That the
memory stays in canonical form is the model's own convention (log entry 5), no rule of the spec. -/
def Obligations.LoadCopiesTheSection : Prop :=
  ∀ (s : State) (img : Image),
    (img.address + img.bytes.length ≤ s.mem.size → s.mem.wf → ∃ t, s.load img = .ok t ∧ t.pc = img.entry ∧
      t.mem.wf ∧ t.mem.size = s.mem.size ∧
      (∀ (k : Nat) (h : k < img.bytes.length), t.mem.byteAt (img.address + k) = img.bytes[k]) ∧
      (∀ a, a < img.address ∨ img.address + img.bytes.length ≤ a → t.mem.byteAt a = s.mem.byteAt a) ∧
      (∀ r, t.readReg r = s.readReg r) ∧ OutputKept s t) ∧
    (s.mem.size < img.address + img.bytes.length → s.load img = .error .overflow) ∧
    ∀ (parsed : Except LoaderError Image) (e : LoaderError), (hostLoad parsed s).2 = .error e → (hostLoad parsed s).1 = s

/-- The launch state of admissible parameters and the reset state meet the invariant. The values of the reset state
are the model's choice (log entries 1 to 6). -/
def Obligations.LaunchAndResetMeetInvariant : Prop :=
  (∀ p : Params, validParams p → (State.launch p).Inv) ∧ State.reset.Inv ∧ State.reset.pcEven

/-! ## Invariants of every step -/

/-- Headline, R23: every step from a state with canonical memory ends in one, with `x[0] = 0`. -/
def Obligations.StepKeepsInvariant : Prop :=
  ∀ s t : State, s.Inv → step s = .next t → t.Inv

/-- Headline, R28: every step that completes from an even pc ends at an even pc. -/
def Obligations.PcStaysEven : Prop :=
  ∀ s t : State, s.pcEven → step s = .next t → t.pcEven

/-- R36, R64: the capacity, the port address and the sink's attachment never change. -/
def Obligations.ParametersNeverChange : Prop :=
  ∀ (k : Nat) (s t : State), runsTo k s t →
    t.mem.size = s.mem.size ∧ t.outputPort = s.outputPort ∧ t.sinkAttached = s.sinkAttached

/-- Headline, R65: over a run of any length from any state the byte behind the port keeps its value. -/
def Obligations.PortByteNeverChanges : Prop :=
  ∀ (k : Nat) (s t : State), runsTo k s t → t.mem.byteAt s.outputPort.toNat = s.mem.byteAt s.outputPort.toNat

/-- R15, R69 (e): over a run of any length the output trace only grows at its end, by at most one event a step. -/
def Obligations.TraceOnlyGrows : Prop :=
  ∀ (k : Nat) (s t : State), runsTo k s t → ∃ new, t.trace = s.trace ++ new ∧ new.length ≤ k ∧
    ∀ e ∈ new, e.addr = s.outputPort
end

