-- ==== Sys2Proof/Laws/Decode.lean ====
section
/-! SUPPORT. The decoder said once per opcode, and its independence of the offset. -/

namespace Sys2Proof

/-- A function-code table with one populated entry (R98). -/
theorem lookup_single (c k : BitVec 3) (v : InstrId) : [(k, v)].lookup c = if c = k then some v else none := by
  by_cases h : c = k
  · simp [h]
  · have : (c == k) = false := beq_false_of_ne h
    simp [List.lookup, this, h]

/-- A word whose opcode has a dispatch-table entry is decoded by that entry. -/
theorem decodeWord_of_entry {w : InstrWord} {op : BitVec 5} {e : Entry} (h : op5Of w = op)
    (he : dispatchTable.lookup op = some e) (offset : Word) :
    decodeWord w offset = e.apply w { Record.blank offset with size := 4 } := by
  simp [decodeWord, h, he]

/-- The LUI hook undoes the implicit shift (R147, R94). -/
theorem immU_sshiftRight (w : InstrWord) : (immU w).sshiftRight 12 = immU20 w := by
  apply BitVec.eq_of_getLsbD_eq
  intro i hi
  simp only [immU, immU20, sext, BitVec.getLsbD_sshiftRight, BitVec.getLsbD_signExtend, BitVec.getLsbD_append,
    BitVec.getLsbD_extractLsb', BitVec.msb_eq_getLsbD_last, BitVec.getLsbD_zero]
  have e64 : (64 ≤ i) = False := eq_false (by omega)
  by_cases h1 : i < 20
  · have e32 : (12 + i < 32) = True := eq_true (by omega)
    have e12 : (12 + i < 12) = False := eq_false (by omega)
    have e : (12 + i < 64) = True := eq_true (by omega)
    simp [e64, e32, e12, e, h1, hi]
  · have e32 : (12 + i < 32) = False := eq_false (by omega)
    by_cases h2 : 12 + i < 64 <;> simp [e64, e32, h1, h2, hi]

section
variable {w : InstrWord} (offset : Word)

theorem decodeWord_load (h : op5Of w = 0b00000#5) : decodeWord w offset =
    ⟨if funct3Of w = 0b000#3 then .lb else .unknown, offset, 4, { fmtI := true }, 3, zext (rdOf w), zext (rs1Of w),
      immI w⟩ := by
  rw [decodeWord_of_entry h rfl]
  by_cases h3 : funct3Of w = 0b000#3 <;>
    simp [h3, Entry.apply, Entry.selectId, Format.apply, Record.blank, lookup_single]

theorem decodeWord_opImm (h : op5Of w = 0b00100#5) : decodeWord w offset =
    ⟨if funct3Of w = 0b000#3 then .addi else .unknown, offset, 4, { fmtI := true }, 3, zext (rdOf w), zext (rs1Of w),
      immI w⟩ := by
  rw [decodeWord_of_entry h rfl]
  by_cases h3 : funct3Of w = 0b000#3 <;>
    simp [h3, Entry.apply, Entry.selectId, Format.apply, Record.blank, lookup_single]

theorem decodeWord_auipc (h : op5Of w = 0b00101#5) : decodeWord w offset =
    ⟨.auipc, offset, 4, { fmtU := true }, 2, zext (rdOf w), immU w, 0⟩ := by
  rw [decodeWord_of_entry h rfl]
  rfl

theorem decodeWord_store (h : op5Of w = 0b01000#5) : decodeWord w offset =
    ⟨if funct3Of w = 0b000#3 then .sb else .unknown, offset, 4, { fmtS := true }, 3, zext (rs1Of w), zext (rs2Of w),
      immS w⟩ := by
  rw [decodeWord_of_entry h rfl]
  by_cases h3 : funct3Of w = 0b000#3 <;>
    simp [h3, Entry.apply, Entry.selectId, Format.apply, Record.blank, lookup_single]

theorem decodeWord_op (h : op5Of w = 0b01100#5) : decodeWord w offset =
    ⟨if funct3Of w = 0b000#3 ∧ funct7Of w = 0b0000000#7 then .add else .unknown, offset, 4, { fmtR := true }, 3,
      zext (rdOf w), zext (rs1Of w), zext (rs2Of w)⟩ := by
  rw [decodeWord_of_entry h rfl]
  by_cases h3 : funct3Of w = 0b000#3 <;> by_cases h7 : funct7Of w = 0b0000000#7 <;>
    simp [h3, h7, Entry.apply, Entry.selectId, Format.apply, Record.blank, lookup_single, Hook.apply]

theorem decodeWord_lui (h : op5Of w = 0b01101#5) : decodeWord w offset =
    ⟨.lui, offset, 4, { fmtU := true }, 2, zext (rdOf w), immU20 w, 0⟩ := by
  rw [decodeWord_of_entry h rfl, ← immU_sshiftRight]
  rfl

theorem decodeWord_branch (h : op5Of w = 0b11000#5) : decodeWord w offset =
    ⟨if funct3Of w = 0b100#3 then .blt else .unknown, offset, 4, { fmtB := true, ct := true }, 3, zext (rs1Of w),
      zext (rs2Of w), immB w⟩ := by
  rw [decodeWord_of_entry h rfl]
  by_cases h3 : funct3Of w = 0b100#3 <;>
    simp [h3, Entry.apply, Entry.selectId, Format.apply, Record.blank, lookup_single]

theorem decodeWord_jalr (h : op5Of w = 0b11001#5) : decodeWord w offset =
    ⟨if funct3Of w = 0b000#3 then .jalr else .unknown, offset, 4, { fmtI := true, ct := true }, 3, zext (rdOf w),
      zext (rs1Of w), immI w⟩ := by
  rw [decodeWord_of_entry h rfl]
  rfl

theorem decodeWord_jal (h : op5Of w = 0b11011#5) : decodeWord w offset =
    ⟨.jal, offset, 4, { fmtJ := true, ct := true }, 2, zext (rdOf w), immJ w, 0⟩ := by
  rw [decodeWord_of_entry h rfl]
  rfl

/-- The nine opcodes with a dispatch-table entry (R97). -/
def mappedOpcodes : List (BitVec 5) := [0#5, 4#5, 5#5, 8#5, 12#5, 13#5, 24#5, 25#5, 27#5]

theorem lookup_isNone_iff (op : BitVec 5) : dispatchTable.lookup op = none ↔ op ∉ mappedOpcodes := by
  revert op
  decide

theorem decodeWord_unmapped (h : op5Of w ∉ mappedOpcodes) : decodeWord w offset =
    ⟨.unknown, offset, 4, {}, 0, 0, 0, 0⟩ := by
  simp [decodeWord, (lookup_isNone_iff _).mpr h, Record.blank]

end

/-- A word's opcode is one of the nine or unmapped. -/
theorem op5_cases (w : InstrWord) :
    op5Of w = 0b00000#5 ∨ op5Of w = 0b00100#5 ∨ op5Of w = 0b00101#5 ∨ op5Of w = 0b01000#5 ∨ op5Of w = 0b01100#5 ∨
      op5Of w = 0b01101#5 ∨ op5Of w = 0b11000#5 ∨ op5Of w = 0b11001#5 ∨ op5Of w = 0b11011#5 ∨
      op5Of w ∉ mappedOpcodes := by
  generalize op5Of w = op
  revert op
  decide

@[simp] theorem slotReg_zext (b : BitVec 5) : slotReg (zext b) = fieldReg b := by
  apply Fin.ext
  have := b.isLt
  simp [slotReg, zext, fieldReg, Fin.ofNat, BitVec.toNat_setWidth]
  omega

@[simp] theorem regField_fieldReg (b : BitVec 5) : regField (fieldReg b) = b := by
  simp [regField, fieldReg]

@[simp] theorem fieldReg_regField (r : Reg) : fieldReg (regField r) = r := by
  apply Fin.ext
  have := r.isLt
  simp [regField, fieldReg]

/-- The instruction of a record does not depend on the offset, and the id neither. -/
theorem decodeWord_offset (w : InstrWord) (offset : Word) :
    decodeWord w offset = { decodeWord w 0 with address := offset } := by
  rcases op5_cases w with h | h | h | h | h | h | h | h | h | h
  · simp [decodeWord_load _ h]
  · simp [decodeWord_opImm _ h]
  · simp [decodeWord_auipc _ h]
  · simp [decodeWord_store _ h]
  · simp [decodeWord_op _ h]
  · simp [decodeWord_lui _ h]
  · simp [decodeWord_branch _ h]
  · simp [decodeWord_jalr _ h]
  · simp [decodeWord_jal _ h]
  · simp [decodeWord_unmapped _ h]

theorem decodeWord_toInstr_offset (w : InstrWord) (offset : Word) :
    (decodeWord w offset).toInstr = (decodeWord w 0).toInstr := by
  rw [decodeWord_offset]
  rfl

/-- The instruction of the record the bytes give, and what `decodeInstr` says of the bytes. -/
theorem decodeBytes_toInstr (b0 b1 b2 b3 : Byte) (offset : Word) :
    (decodeBytes b0 b1 b2 b3 offset).toInstr = (decodeInstr b0 b1 b2 b3).toOption := by
  unfold decodeBytes decodeInstr
  split
  · rw [decodeWord_toInstr_offset, decodeInstrWord]
    cases (decodeWord (assemble b0 b1 b2 b3) 0).toInstr <;> rfl
  · rfl

@[simp] theorem decodeBytes_address (b0 b1 b2 b3 : Byte) (offset : Word) :
    (decodeBytes b0 b1 b2 b3 offset).address = offset := by
  unfold decodeBytes
  split
  · rw [decodeWord_offset]
  · rfl

/-- Bytes are an instruction exactly when the record has one. -/
theorem decodeInstr_eq_ok {b0 b1 b2 b3 : Byte} {i : Instr} (offset : Word) :
    decodeInstr b0 b1 b2 b3 = .ok i ↔ (decodeBytes b0 b1 b2 b3 offset).toInstr = some i := by
  rw [decodeBytes_toInstr]
  cases decodeInstr b0 b1 b2 b3 <;> simp [Decoded.toOption]

end Sys2Proof
end

