-- ==== Sys2Proof/Laws/State.lean ====
section
/-! SUPPORT. One lemma per field per update, so that no later proof unfolds a record update, and the laws of the
register file. -/

namespace Sys2Proof.Machine

variable (s : State) (r q : Reg) (v : Word)

@[simp] theorem writeReg_pc : (s.writeReg r v).pc = s.pc := rfl
@[simp] theorem writeReg_mem : (s.writeReg r v).mem = s.mem := rfl
@[simp] theorem writeReg_outputPort : (s.writeReg r v).outputPort = s.outputPort := rfl
@[simp] theorem writeReg_sinkAttached : (s.writeReg r v).sinkAttached = s.sinkAttached := rfl
@[simp] theorem writeReg_trace : (s.writeReg r v).trace = s.trace := rfl

@[simp] theorem setPc_pc : (s.setPc v).pc = v := rfl
@[simp] theorem setPc_regs : (s.setPc v).regs = s.regs := rfl
@[simp] theorem setPc_readReg : (s.setPc v).readReg r = s.readReg r := rfl
@[simp] theorem setPc_mem : (s.setPc v).mem = s.mem := rfl
@[simp] theorem setPc_outputPort : (s.setPc v).outputPort = s.outputPort := rfl
@[simp] theorem setPc_sinkAttached : (s.setPc v).sinkAttached = s.sinkAttached := rfl
@[simp] theorem setPc_trace : (s.setPc v).trace = s.trace := rfl

@[simp] theorem advance_pc : s.advance.pc = s.pc + 4 := rfl
@[simp] theorem advance_regs : s.advance.regs = s.regs := rfl
@[simp] theorem advance_readReg : s.advance.readReg r = s.readReg r := rfl
@[simp] theorem advance_mem : s.advance.mem = s.mem := rfl
@[simp] theorem advance_outputPort : s.advance.outputPort = s.outputPort := rfl
@[simp] theorem advance_sinkAttached : s.advance.sinkAttached = s.sinkAttached := rfl
@[simp] theorem advance_trace : s.advance.trace = s.trace := rfl

@[simp] theorem forceZero_pc : s.forceZero.pc = s.pc := rfl
@[simp] theorem forceZero_mem : s.forceZero.mem = s.mem := rfl
@[simp] theorem forceZero_outputPort : s.forceZero.outputPort = s.outputPort := rfl
@[simp] theorem forceZero_sinkAttached : s.forceZero.sinkAttached = s.sinkAttached := rfl
@[simp] theorem forceZero_trace : s.forceZero.trace = s.trace := rfl

@[simp] theorem setMem_pc (m : Memory) : (s.setMem m).pc = s.pc := rfl
@[simp] theorem setMem_readReg (m : Memory) : (s.setMem m).readReg r = s.readReg r := rfl
@[simp] theorem setMem_mem (m : Memory) : (s.setMem m).mem = m := rfl
@[simp] theorem setMem_outputPort (m : Memory) : (s.setMem m).outputPort = s.outputPort := rfl
@[simp] theorem setMem_sinkAttached (m : Memory) : (s.setMem m).sinkAttached = s.sinkAttached := rfl
@[simp] theorem setMem_trace (m : Memory) : (s.setMem m).trace = s.trace := rfl

@[simp] theorem emit_pc (b : Byte) (a : Word) : (s.emit b a).pc = s.pc := rfl
@[simp] theorem emit_readReg (b : Byte) (a : Word) : (s.emit b a).readReg r = s.readReg r := rfl
@[simp] theorem emit_mem (b : Byte) (a : Word) : (s.emit b a).mem = s.mem := rfl
@[simp] theorem emit_outputPort (b : Byte) (a : Word) : (s.emit b a).outputPort = s.outputPort := rfl
@[simp] theorem emit_sinkAttached (b : Byte) (a : Word) : (s.emit b a).sinkAttached = s.sinkAttached := rfl
@[simp] theorem emit_trace (b : Byte) (a : Word) : (s.emit b a).trace = s.trace ++ [⟨b, a⟩] := rfl

@[simp] theorem setPc_x : (s.setPc v).x r = s.x r := rfl
@[simp] theorem advance_x : s.advance.x r = s.x r := rfl
@[simp] theorem setMem_x (m : Memory) : (s.setMem m).x r = s.x r := rfl
@[simp] theorem emit_x (b : Byte) (a : Word) : (s.emit b a).x r = s.x r := rfl

/-- Two states with equal fields, register by register, are equal. -/
theorem State.ext_fields {s t : State} (hpc : s.pc = t.pc) (hregs : ∀ r, s.readReg r = t.readReg r) (hmem : s.mem = t.mem)
    (hport : s.outputPort = t.outputPort) (hsink : s.sinkAttached = t.sinkAttached) (htrace : s.trace = t.trace) :
    s = t := by
  obtain ⟨_, sregs, _, _, _, _⟩ := s
  obtain ⟨_, tregs, _, _, _, _⟩ := t
  have hr : sregs = tregs := Vector.ext fun i hi => hregs ⟨i, hi⟩
  simp_all

/-- A register write is read back at its own index and nowhere else. -/
theorem readReg_writeReg : (s.writeReg r v).readReg q = if q = r then v else s.readReg q := by
  simp only [State.readReg, State.writeReg, Vector.get_eq_getElem, Vector.getElem_set, Fin.ext_iff, eq_comm]

@[simp] theorem readReg_writeReg_self : (s.writeReg r v).readReg r = v := by simp [readReg_writeReg]

/-- After the forcing, a register holds what an instruction reads. -/
@[simp] theorem readReg_forceZero : s.forceZero.readReg r = s.x r := by
  simp [State.forceZero, readReg_writeReg, State.x]

@[simp] theorem x_zero : s.x 0 = 0 := rfl

theorem x_of_ne_zero (h : r ≠ 0) : s.x r = s.readReg r := by simp [State.x, h]

@[simp] theorem x_forceZero : s.forceZero.x r = s.x r := by
  by_cases h : r = 0 <;> simp [State.x, h]

/-- A state whose register 0 holds 0 reads its stored registers. -/
theorem x_eq_readReg (h : s.readReg 0 = 0) : s.x r = s.readReg r := by
  by_cases hr : r = 0
  · simp [hr, h]
  · exact x_of_ne_zero s r hr

/-- A write is seen by every later read of its register, unless that is register 0. -/
theorem x_writeReg : (s.writeReg r v).x q = if q = 0 then 0 else if q = r then v else s.x q := by
  by_cases h0 : q = 0
  · simp [h0]
  · simp [State.x, readReg_writeReg, h0]

@[simp] theorem forceZero_forceZero : s.forceZero.forceZero = s.forceZero :=
  State.ext_fields rfl (by simp) rfl rfl rfl rfl

/-- Forcing leaves a state alone exactly when register 0 already holds 0. -/
theorem forceZero_eq_self (h : s.readReg 0 = 0) : s.forceZero = s :=
  State.ext_fields rfl (fun r => by simp [x_eq_readReg s r h]) rfl rfl rfl rfl

end Sys2Proof.Machine
end

