-- ==== Sys2Proof/Laws/Memory.lean ====
section
/-! SUPPORT. The laws of memory: read after write, and that every memory operation keeps the canonical form. -/

namespace Sys2Proof.Machine

/-- Every listed address is above `lo`. -/
def cellsAbove (lo : Nat) (cells : List Host.Cell) : Prop := ∀ c ∈ cells, lo < c.1

/-- The canonical form of a list of cells inside a buffer of `size` bytes. -/
def cellsCanonical (size : Nat) (cells : List Host.Cell) : Prop :=
  cells.Pairwise (fun c d => c.1 < d.1) ∧ ∀ c ∈ cells, c.1 < size ∧ c.2 ≠ fillByte

theorem Memory.wf_iff (m : Memory) : m.wf ↔ cellsCanonical m.size m.cells ∧ m.size ≤ maxMemSize := by
  simp [Memory.wf, cellsCanonical, and_assoc]

/-- An address that is not listed reads as the fill byte. -/
theorem cellsGet_of_not_listed {cells : List Host.Cell} {a : Nat} (h : ∀ c ∈ cells, c.1 ≠ a) :
    cellsGet cells a = fillByte := by
  induction cells with
  | nil => rfl
  | cons c rest ih =>
    have hc := h c (by simp)
    simp only [cellsGet, hc, if_false]
    exact ih fun d hd => h d (by simp [hd])

/-- A write leaves every other address alone, in any list of cells. -/
theorem cellsGet_cellsPut_of_ne (cells : List Host.Cell) {a b : Nat} (v : Byte) (h : b ≠ a) :
    cellsGet (cellsPut cells a v) b = cellsGet cells b := by
  induction cells with
  | nil => by_cases hv : v = fillByte <;> simp [cellsPut, cellsGet, hv, Ne.symm h]
  | cons c rest ih =>
    obtain ⟨k, x⟩ := c
    simp only [cellsPut]
    split_ifs with h1 h2 h2 h3
    · rfl
    · simp [cellsGet, Ne.symm h]
    · subst h2
      simp [cellsGet, Ne.symm h]
    · subst h2
      simp [cellsGet, Ne.symm h]
    · simp [cellsGet, ih]

/-- A write to canonical cells reads back. -/
theorem cellsGet_cellsPut_self {cells : List Host.Cell} (hs : cells.Pairwise (fun c d => c.1 < d.1)) (a : Nat)
    (v : Byte) : cellsGet (cellsPut cells a v) a = v := by
  induction cells with
  | nil => by_cases hv : v = fillByte <;> simp [cellsPut, cellsGet, hv]
  | cons c rest ih =>
    obtain ⟨k, x⟩ := c
    obtain ⟨hk, hrest⟩ := List.pairwise_cons.mp hs
    simp only [cellsPut]
    split_ifs with h1 h2 h2 h3
    · subst h2
      refine cellsGet_of_not_listed fun d hd => ?_
      rcases List.mem_cons.mp hd with rfl | hd
      · simp; omega
      · have := hk d hd
        simp at this
        omega
    · simp [cellsGet]
    · subst h2
      subst h3
      exact cellsGet_of_not_listed fun d hd => Nat.ne_of_gt (hk d hd)
    · simp [cellsGet]
    · simp [cellsGet, Ne.symm h2, ih hrest]

/-- The cells after a write are old cells or the one written. -/
theorem mem_cellsPut {cells : List Host.Cell} {a : Nat} {v : Byte} {c : Host.Cell} (h : c ∈ cellsPut cells a v) :
    c ∈ cells ∨ (c = (a, v) ∧ v ≠ fillByte) := by
  induction cells with
  | nil => by_cases hv : v = fillByte <;> simp_all [cellsPut]
  | cons d rest ih =>
    obtain ⟨k, x⟩ := d
    simp only [cellsPut] at h
    split_ifs at h <;> simp_all <;> tauto

/-- A write inside the buffer keeps the canonical form. -/
theorem cellsPut_canonical {size : Nat} {cells : List Host.Cell} (h : cellsCanonical size cells) {a : Nat} (v : Byte)
    (ha : a < size) : cellsCanonical size (cellsPut cells a v) := by
  refine ⟨?_, fun c hc => ?_⟩
  · obtain ⟨hs, -⟩ := h
    induction cells with
    | nil => by_cases hv : v = fillByte <;> simp [cellsPut, hv]
    | cons c rest ih =>
      obtain ⟨k, x⟩ := c
      obtain ⟨hk, hrest⟩ := List.pairwise_cons.mp hs
      simp only [cellsPut]
      split_ifs with h1 h2 h2 h3
      · exact hs
      · refine List.pairwise_cons.mpr ⟨fun d hd => ?_, hs⟩
        rcases List.mem_cons.mp hd with rfl | hd
        · exact h1
        · exact Nat.lt_trans h1 (hk d hd)
      · exact hrest
      · exact List.pairwise_cons.mpr ⟨fun d hd => h2 ▸ hk d hd, hrest⟩
      · refine List.pairwise_cons.mpr ⟨fun d hd => ?_, ih hrest⟩
        rcases mem_cellsPut hd with hd | ⟨rfl, -⟩
        · exact hk d hd
        · show k < a
          omega
  · rcases mem_cellsPut hc with hc | ⟨rfl, hv⟩
    · exact h.2 c hc
    · exact ⟨ha, hv⟩

/-- The Loader's byte copy keeps the canonical form, copies its bytes, and leaves every other address alone. -/
theorem cellsPutAll_spec {size : Nat} (bytes : List Byte) :
    ∀ {cells : List Host.Cell} {a : Nat}, cellsCanonical size cells → a + bytes.length ≤ size →
      cellsCanonical size (cellsPutAll cells a bytes) ∧
      (∀ (k : Nat) (h : k < bytes.length), cellsGet (cellsPutAll cells a bytes) (a + k) = bytes[k]) ∧
      ∀ b, b < a ∨ a + bytes.length ≤ b → cellsGet (cellsPutAll cells a bytes) b = cellsGet cells b := by
  induction bytes with
  | nil => intro cells a h _; exact ⟨h, fun k hk => absurd hk (by simp), fun b _ => rfl⟩
  | cons v rest ih =>
    intro cells a h hfit
    simp only [List.length_cons] at hfit ⊢
    obtain ⟨hwf, hin, hout⟩ := ih (cellsPut_canonical h v (show a < size by omega)) (a := a + 1) (by omega)
    refine ⟨hwf, fun k hk => ?_, fun b hb => ?_⟩
    · cases k with
      | zero => simp [cellsPutAll, hout a (by omega), cellsGet_cellsPut_self h.1]
      | succ k =>
        have := hin k (by omega)
        simpa [cellsPutAll, Nat.add_assoc, Nat.add_comm 1 k] using this
    · rw [cellsPutAll, hout b (by omega), cellsGet_cellsPut_of_ne _ _ (by omega)]

@[simp] theorem put_size (m : Memory) (a : Nat) (v : Byte) : (m.put a v).size = m.size := rfl

theorem byteAt_put_self {m : Memory} (hm : m.wf) (a : Nat) (v : Byte) : (m.put a v).byteAt a = v :=
  cellsGet_cellsPut_self hm.1 a v

theorem byteAt_put_of_ne (m : Memory) {a b : Nat} (v : Byte) (h : b ≠ a) : (m.put a v).byteAt b = m.byteAt b :=
  cellsGet_cellsPut_of_ne m.cells v h

theorem put_wf {m : Memory} (hm : m.wf) {a : Nat} (ha : a < m.size) (v : Byte) : (m.put a v).wf := by
  rw [Memory.wf_iff] at hm ⊢
  exact ⟨cellsPut_canonical hm.1 v ha, hm.2⟩

/-- What a one-byte write can do. -/
theorem write1_eq_some {m m' : Memory} {addr : Word} {v : Byte} (h : m.write1 addr v = some m') :
    addr.toNat < m.size ∧ m' = m.put addr.toNat v := by
  unfold Memory.write1 at h
  split_ifs at h with hlt
  exact ⟨hlt, (Option.some.inj h).symm⟩

/-- A one-byte write keeps the canonical form. -/
theorem write1_wf {m m' : Memory} {addr : Word} {v : Byte} (hm : m.wf) (h : m.write1 addr v = some m') : m'.wf := by
  obtain ⟨hlt, rfl⟩ := write1_eq_some h
  exact put_wf hm hlt v

/-- A load keeps the canonical form. -/
theorem load_wf {s t : State} {img : Image} (hs : s.mem.wf) (h : s.load img = .ok t) : t.mem.wf := by
  unfold State.load at h
  split_ifs at h with hfit
  obtain rfl := Except.ok.inj h
  rw [Memory.wf_iff] at hs ⊢
  exact ⟨(cellsPutAll_spec img.bytes hs.1 hfit).1, hs.2⟩

end Sys2Proof.Machine
end

