-- ==== Sys2Proof/Laws/Exec.lean ====
section
/-! SUPPORT. What each shared operation of the step protocol can do, said once, and each meaning as an equation over
them. -/

namespace Sys2Proof.Machine

/-! ## The end of a completed step -/

@[simp] theorem complete_pc (ct : Bool) (s : State) : (s.complete ct).pc = if ct then s.pc else s.pc + 4 := by
  cases ct <;> rfl

@[simp] theorem complete_readReg (ct : Bool) (s : State) (r : Reg) : (s.complete ct).readReg r = s.x r := by
  cases ct <;> simp [State.complete, State.x]

@[simp] theorem complete_mem (ct : Bool) (s : State) : (s.complete ct).mem = s.mem := by cases ct <;> rfl
@[simp] theorem complete_outputPort (ct : Bool) (s : State) : (s.complete ct).outputPort = s.outputPort := by
  cases ct <;> rfl
@[simp] theorem complete_sinkAttached (ct : Bool) (s : State) : (s.complete ct).sinkAttached = s.sinkAttached := by
  cases ct <;> rfl
@[simp] theorem complete_trace (ct : Bool) (s : State) : (s.complete ct).trace = s.trace := by cases ct <;> rfl

/-! ## The protocol -/

theorem protocol_eq_next {ct : Bool} {h : State → Result} {s t : State} :
    protocol ct h s = .next t ↔ ∃ u, h s.forceZero = .next u ∧ u.complete ct = t := by
  unfold protocol
  cases h s.forceZero <;> simp

theorem protocol_eq_fault {ct : Bool} {h : State → Result} {s : State} {f : Fault} :
    protocol ct h s = .fault f ↔ h s.forceZero = .fault f := by
  unfold protocol
  cases h s.forceZero <;> simp

theorem protocol_eq_refused {ct : Bool} {h : State → Result} {s : State} {r : Refusal} :
    protocol ct h s = .refused r ↔ h s.forceZero = .refused r := by
  unfold protocol
  cases h s.forceZero <;> simp

/-- The protocol forces register 0 first, so it does not see what register 0 held. -/
theorem protocol_forceZero (ct : Bool) (h : State → Result) (s : State) :
    protocol ct h s.forceZero = protocol ct h s := by simp [protocol]

/-! ## Loads and stores -/

theorem loadByte_of_lt {s : State} {ea : Word} {k : Byte → Result} (h : ea.toNat < s.mem.size) :
    s.loadByte ea k = k (s.mem.byteAt ea.toNat) := by
  simp [State.loadByte, Memory.read1, h]

theorem loadByte_of_ge {s : State} {ea : Word} {k : Byte → Result} (h : s.mem.size ≤ ea.toNat) :
    s.loadByte ea k = .fault (.accessFault ea) := by
  simp [State.loadByte, Memory.read1, Nat.not_lt.mpr h]

theorem storeByte_at_port {s : State} {ea : Word} {b : Byte} (h : ea = s.outputPort) (hs : s.sinkAttached = true) :
    s.storeByte ea b = .next (s.emit b ea) := by
  subst h
  simp [State.storeByte, State.output, hs]

theorem storeByte_at_port_no_sink {s : State} {ea : Word} {b : Byte} (h : ea = s.outputPort)
    (hs : s.sinkAttached = false) : s.storeByte ea b = .refused .noOutputSink := by
  subst h
  simp [State.storeByte, State.output, hs]

theorem storeByte_of_lt {s : State} {ea : Word} {b : Byte} (h : ea ≠ s.outputPort) (hlt : ea.toNat < s.mem.size) :
    s.storeByte ea b = .next (s.setMem (s.mem.put ea.toNat b)) := by
  simp [State.storeByte, Memory.write1, h, hlt]

theorem storeByte_of_ge {s : State} {ea : Word} {b : Byte} (h : ea ≠ s.outputPort) (hge : s.mem.size ≤ ea.toNat) :
    s.storeByte ea b = .fault (.accessFault ea) := by
  simp [State.storeByte, Memory.write1, h, Nat.not_lt.mpr hge]

/-- Everything a store can do. -/
theorem storeByte_cases (s : State) (ea : Word) (b : Byte) :
    (ea = s.outputPort ∧ s.sinkAttached = true ∧
      s.storeByte ea b = .next (s.emit b ea)) ∨
    (ea = s.outputPort ∧ s.sinkAttached = false ∧ s.storeByte ea b = .refused .noOutputSink) ∨
    (ea ≠ s.outputPort ∧ ea.toNat < s.mem.size ∧
      s.storeByte ea b = .next (s.setMem (s.mem.put ea.toNat b))) ∨
    (ea ≠ s.outputPort ∧ s.mem.size ≤ ea.toNat ∧ s.storeByte ea b = .fault (.accessFault ea)) := by
  by_cases hp : ea = s.outputPort
  · rcases Bool.eq_false_or_eq_true s.sinkAttached with hs | hs
    · exact .inl ⟨hp, hs, storeByte_at_port hp hs⟩
    · exact .inr (.inl ⟨hp, hs, storeByte_at_port_no_sink hp hs⟩)
  · rcases Nat.lt_or_ge ea.toNat s.mem.size with hlt | hge
    · exact .inr (.inr (.inl ⟨hp, hlt, storeByte_of_lt hp hlt⟩))
    · exact .inr (.inr (.inr ⟨hp, hge, storeByte_of_ge hp hge⟩))

/-! ## Each meaning as an equation -/

section
variable (rd rs1 rs2 : Reg) (imm : Word) (s : State)

theorem exec_jal : exec (.jal rd imm) s =
    .next (((s.forceZero.writeReg rd (s.pc + 4)).setPc (s.pc + imm)).complete true) := rfl

theorem exec_jalr : exec (.jalr rd rs1 imm) s =
    .next (((s.forceZero.writeReg rd (s.pc + 4)).setPc ((s.x rs1 + imm) &&& ~~~1#64)).complete true) := by
  rw [← readReg_forceZero]
  rfl

theorem exec_lui : exec (.lui rd imm) s = .next ((s.forceZero.writeReg rd (imm <<< 12)).complete false) := rfl

theorem exec_auipc : exec (.auipc rd imm) s = .next ((s.forceZero.writeReg rd (s.pc + imm)).complete false) := rfl

theorem exec_addi : exec (.addi rd rs1 imm) s =
    .next ((s.forceZero.writeReg rd (s.x rs1 + imm)).complete false) := by
  rw [← readReg_forceZero]
  rfl

theorem exec_add : exec (.add rd rs1 rs2) s =
    .next ((s.forceZero.writeReg rd (s.x rs1 + s.x rs2)).complete false) := by
  rw [← readReg_forceZero, ← readReg_forceZero]
  rfl

theorem exec_blt : exec (.blt rs1 rs2 imm) s =
    .next ((s.forceZero.setPc (if (s.x rs1).toInt < (s.x rs2).toInt then s.pc + imm else s.pc + 4)).complete true) := by
  simp only [exec, execBlt, runTransfer, protocol, lessThanSigned, readReg_forceZero, decide_eq_true_eq]
  rfl

theorem exec_lb : exec (.lb rd rs1 imm) s =
    runPlain (fun u => u.loadByte (s.x rs1 + imm) fun b => .next (u.writeReg rd (sext b))) s := by
  simp only [exec, execLb, runPlain, protocol, State.effAddr, readReg_forceZero]

theorem exec_sb : exec (.sb rs1 rs2 imm) s =
    runPlain (fun u => u.storeByte (s.x rs1 + imm) ((s.x rs2).extractLsb' 0 8)) s := by
  simp only [exec, execSb, runPlain, protocol, State.effAddr, lowByte, readReg_forceZero]

end

/-! ## LB and SB, case by case -/

section
variable {rd rs1 rs2 : Reg} {imm : Word} {s : State}

theorem exec_lb_of_lt (h : (s.x rs1 + imm).toNat < s.mem.size) : exec (.lb rd rs1 imm) s =
    .next ((s.forceZero.writeReg rd (sext (s.mem.byteAt (s.x rs1 + imm).toNat))).complete false) := by
  rw [exec_lb, runPlain, protocol_eq_next]
  exact ⟨_, loadByte_of_lt h, rfl⟩

theorem exec_lb_of_ge (h : s.mem.size ≤ (s.x rs1 + imm).toNat) : exec (.lb rd rs1 imm) s =
    .fault (.accessFault (s.x rs1 + imm)) := by
  rw [exec_lb, runPlain, protocol_eq_fault]
  exact loadByte_of_ge h

theorem exec_sb_at_port (h : s.x rs1 + imm = s.outputPort) (hs : s.sinkAttached = true) :
    exec (.sb rs1 rs2 imm) s =
      .next ((s.forceZero.emit ((s.x rs2).extractLsb' 0 8) (s.x rs1 + imm)).complete false) := by
  rw [exec_sb, runPlain, protocol_eq_next]
  exact ⟨_, storeByte_at_port h hs, rfl⟩

theorem exec_sb_of_lt (h : s.x rs1 + imm ≠ s.outputPort) (hlt : (s.x rs1 + imm).toNat < s.mem.size) :
    exec (.sb rs1 rs2 imm) s =
      .next ((s.forceZero.setMem (s.mem.put (s.x rs1 + imm).toNat ((s.x rs2).extractLsb' 0 8))).complete false) := by
  rw [exec_sb, runPlain, protocol_eq_next]
  exact ⟨_, storeByte_of_lt h hlt, rfl⟩

theorem exec_sb_of_ge (h : s.x rs1 + imm ≠ s.outputPort) (hge : s.mem.size ≤ (s.x rs1 + imm).toNat) :
    exec (.sb rs1 rs2 imm) s = .fault (.accessFault (s.x rs1 + imm)) := by
  rw [exec_sb, runPlain, protocol_eq_fault]
  exact storeByte_of_ge h hge

/-- LB completes only on an address in range. -/
theorem exec_lb_next {t : State} (h : exec (.lb rd rs1 imm) s = .next t) : (s.x rs1 + imm).toNat < s.mem.size := by
  by_contra hge
  rw [exec_lb_of_ge (Nat.le_of_not_lt hge)] at h
  cases h

/-- SB completes only at the port with a sink attached, or off the port in range. -/
theorem exec_sb_next {t : State} (h : exec (.sb rs1 rs2 imm) s = .next t) :
    (s.x rs1 + imm = s.outputPort ∧ s.sinkAttached = true) ∨
      (s.x rs1 + imm ≠ s.outputPort ∧ (s.x rs1 + imm).toNat < s.mem.size) := by
  rw [exec_sb, runPlain, protocol_eq_next] at h
  obtain ⟨u, hu, -⟩ := h
  rcases storeByte_cases s.forceZero (s.x rs1 + imm) ((s.x rs2).extractLsb' 0 8) with
    ⟨hp, hs, -⟩ | ⟨-, -, hr⟩ | ⟨hp, hlt, -⟩ | ⟨-, -, hr⟩
  · exact .inl ⟨hp, hs⟩
  · rw [hr] at hu
    cases hu
  · exact .inr ⟨hp, hlt⟩
  · rw [hr] at hu
    cases hu

end

/-! ## A step -/

/-- An admitted fetch decodes the bytes at the pc. -/
theorem fetch_of_admitted {s : State} (h : s.fetchAdmitted = true) : s.fetch = some (decodeAt s.mem s.pc) := by
  simp [State.fetch, h]

/-- The record fetched is the one of the instruction at the pc. -/
theorem decodeAt_toInstr (s : State) : (decodeAt s.mem s.pc).toInstr = s.fetchedInstr.toOption :=
  decodeBytes_toInstr _ _ _ _ _

theorem step_of_not_admitted {s : State} (h : s.fetchAdmitted = false) : step s = .fault (.fetchFault s.pc) := by
  simp [step, coreStep, State.fetch, h]

/-- Everything an admitted step can do. -/
theorem step_of_admitted {s : State} (h : s.fetchAdmitted = true) :
    step s = match s.fetchedInstr.toOption with
      | some i => exec i s
      | none => .fault .illegalInstruction := by
  have haddr : (decodeAt s.mem s.pc).address = s.pc := decodeBytes_address _ _ _ _ _
  cases hd : s.fetchedInstr.toOption <;>
    simp only [step, coreStep, fetch_of_admitted h, engineStep, haddr, if_true, decodeAt_toInstr, hd]

end Sys2Proof.Machine
end

