-- ==== Sys2Proof/Laws/Fields.lean ====
section
/-! SUPPORT. The fields of a word: a word is its fields, a mask of the opcode map keeps some of them, and the encoder
puts each operand where the decoder takes it from. -/

namespace Sys2Proof

/-- A word is its seven fields (R83, R84). -/
theorem fields_append (w : InstrWord) :
    funct7Of w ++ rs2Of w ++ rs1Of w ++ funct3Of w ++ rdOf w ++ op5Of w ++ lenBits w = w := by
  apply BitVec.eq_of_getLsbD_eq
  intro i hi
  simp only [funct7Of, rs2Of, rs1Of, funct3Of, rdOf, op5Of, lenBits, BitVec.getLsbD_append, BitVec.getLsbD_extractLsb']
  interval_cases i <;> simp

/-! ## Masks -/

theorem and_7F (w : InstrWord) : w &&& 0x7F#32 = 0#25 ++ op5Of w ++ lenBits w := by
  apply BitVec.eq_of_getLsbD_eq
  intro i hi
  simp only [op5Of, lenBits, BitVec.getLsbD_append, BitVec.getLsbD_extractLsb', BitVec.getLsbD_and]
  interval_cases i <;> simp

theorem and_707F (w : InstrWord) : w &&& 0x707F#32 = 0#17 ++ funct3Of w ++ 0#5 ++ op5Of w ++ lenBits w := by
  apply BitVec.eq_of_getLsbD_eq
  intro i hi
  simp only [funct3Of, op5Of, lenBits, BitVec.getLsbD_append, BitVec.getLsbD_extractLsb', BitVec.getLsbD_and]
  interval_cases i <;> simp

theorem and_FE00707F (w : InstrWord) :
    w &&& 0xFE00707F#32 = funct7Of w ++ 0#10 ++ funct3Of w ++ 0#5 ++ op5Of w ++ lenBits w := by
  apply BitVec.eq_of_getLsbD_eq
  intro i hi
  simp only [funct7Of, funct3Of, op5Of, lenBits, BitVec.getLsbD_append, BitVec.getLsbD_extractLsb',
    BitVec.getLsbD_and]
  interval_cases i <;> simp

/-- Appends of the same widths are equal exactly when their parts are. -/
theorem append_inj {n m : Nat} {a c : BitVec n} {b d : BitVec m} : a ++ b = c ++ d ↔ a = c ∧ b = d := by
  refine ⟨fun h => ?_, fun ⟨h1, h2⟩ => by rw [h1, h2]⟩
  constructor
  · apply BitVec.eq_of_getLsbD_eq
    intro i hi
    have := congrArg (fun v : BitVec (n + m) => v.getLsbD (m + i)) h
    simpa [BitVec.getLsbD_append, show ¬ m + i < m by omega] using this
  · apply BitVec.eq_of_getLsbD_eq
    intro i hi
    have := congrArg (fun v : BitVec (n + m) => v.getLsbD i) h
    simpa [BitVec.getLsbD_append, hi] using this

/-- The mask `0x7F` tests the opcode and the length bits. -/
theorem and_7F_eq_iff (w : InstrWord) (op : BitVec 5) (c : InstrWord) (hc : c = 0#25 ++ op ++ 0b11#2) :
    w &&& 0x7F#32 = c ↔ op5Of w = op ∧ lenBits w = 0b11#2 := by
  subst hc
  rw [and_7F, append_inj, append_inj]
  simp

/-- The mask `0x707F` tests the function code too. -/
theorem and_707F_eq_iff (w : InstrWord) (f3 : BitVec 3) (op : BitVec 5) (c : InstrWord)
    (hc : c = 0#17 ++ f3 ++ 0#5 ++ op ++ 0b11#2) :
    w &&& 0x707F#32 = c ↔ op5Of w = op ∧ funct3Of w = f3 ∧ lenBits w = 0b11#2 := by
  subst hc
  rw [and_707F, append_inj, append_inj, append_inj, append_inj]
  simp only [true_and, and_true]
  tauto

/-- The mask `0xFE00707F` tests `funct7` too. -/
theorem and_FE00707F_eq_iff (w : InstrWord) (f7 : BitVec 7) (f3 : BitVec 3) (op : BitVec 5) (c : InstrWord)
    (hc : c = f7 ++ 0#10 ++ f3 ++ 0#5 ++ op ++ 0b11#2) :
    w &&& 0xFE00707F#32 = c ↔ op5Of w = op ∧ funct3Of w = f3 ∧ funct7Of w = f7 ∧ lenBits w = 0b11#2 := by
  subst hc
  rw [and_FE00707F, append_inj, append_inj, append_inj, append_inj, append_inj]
  simp only [and_true]
  tauto

/-! ## Bytes -/

theorem assemble_byteOf (w : InstrWord) : assemble (byteOf w 0) (byteOf w 1) (byteOf w 2) (byteOf w 3) = w := by
  apply BitVec.eq_of_getLsbD_eq
  intro i hi
  simp only [assemble, byteOf, BitVec.getLsbD_append, BitVec.getLsbD_extractLsb']
  interval_cases i <;> simp

/-- The length bits of an assembled word are those of its first byte. -/
theorem lenBits_assemble (b0 b1 b2 b3 : Byte) : lenBits (assemble b0 b1 b2 b3) = b0.extractLsb' 0 2 := by
  apply BitVec.eq_of_getLsbD_eq
  intro i hi
  simp only [assemble, lenBits, BitVec.getLsbD_append, BitVec.getLsbD_extractLsb']
  interval_cases i <;> simp

theorem isFourByte_iff (b0 b1 b2 b3 : Byte) : isFourByte b0 = true ↔ lenBits (assemble b0 b1 b2 b3) = 0b11#2 := by
  rw [lenBits_assemble, isFourByte, beq_iff_eq]

/-! ## What the encoder puts in each field -/

section
variable (imm : Word) (rd rs1 rs2 : Reg) (f3 : BitVec 3) (f7 : BitVec 7) (op : BitVec 5) (field : BitVec 20)

theorem encodeR_fields : let w := encodeR f7 rs2 rs1 f3 rd op
    funct7Of w = f7 ∧ rs2Of w = regField rs2 ∧ rs1Of w = regField rs1 ∧ funct3Of w = f3 ∧ rdOf w = regField rd ∧
      op5Of w = op ∧ lenBits w = 0b11#2 := by
  have h := fields_append (encodeR f7 rs2 rs1 f3 rd op)
  simp only [encodeR, append_inj] at h ⊢
  tauto

theorem encodeI_fields : let w := encodeI imm rs1 f3 rd op
    w.extractLsb' 20 12 = imm.extractLsb' 0 12 ∧ rs1Of w = regField rs1 ∧ funct3Of w = f3 ∧ rdOf w = regField rd ∧
      op5Of w = op ∧ lenBits w = 0b11#2 := by
  have h := fields_append (encodeI imm rs1 f3 rd op)
  have e : funct7Of (encodeI imm rs1 f3 rd op) ++ rs2Of (encodeI imm rs1 f3 rd op) =
      (encodeI imm rs1 f3 rd op).extractLsb' 20 12 := by
    apply BitVec.eq_of_getLsbD_eq
    intro i hi
    simp only [funct7Of, rs2Of, BitVec.getLsbD_append, BitVec.getLsbD_extractLsb']
    interval_cases i <;> simp
  rw [e] at h
  conv at h => rhs; rw [encodeI]
  simp only [append_inj] at h ⊢
  tauto

theorem encodeS_fields : let w := encodeS imm rs2 rs1 f3 op
    funct7Of w = imm.extractLsb' 5 7 ∧ rs2Of w = regField rs2 ∧ rs1Of w = regField rs1 ∧ funct3Of w = f3 ∧
      rdOf w = imm.extractLsb' 0 5 ∧ op5Of w = op ∧ lenBits w = 0b11#2 := by
  have h := fields_append (encodeS imm rs2 rs1 f3 op)
  simp only [encodeS, append_inj] at h ⊢
  tauto

end

end Sys2Proof
end

