-- ==== Sys2Proof/Laws/Immediates.lean ====
section
/-! SUPPORT. Immediates: an immediate in the range of its format is the sign extension of its low bits, and the encoder
and the decoder place those bits alike. -/

namespace Sys2Proof

/-- A signed value that fits `n` bits is the sign extension of its low `n` bits. -/
theorem sext_extractLsb' {n : Nat} (hn : 0 < n) (h64 : n ≤ 64) (v : Word) (hlo : -(2 ^ (n - 1) : Int) ≤ v.toInt)
    (hhi : v.toInt < 2 ^ (n - 1)) : sext (v.extractLsb' 0 n) = v := by
  apply BitVec.eq_of_toInt_eq
  have hset : v.extractLsb' 0 n = v.setWidth n := by
    apply BitVec.eq_of_getLsbD_eq
    intro i hi
    simp [hi]
  have hmod : ((v.toNat : Int)).bmod (2 ^ n) = v.toInt.bmod (2 ^ n) := by
    rw [BitVec.toInt_eq_toNat_bmod, Int.bmod_bmod_of_dvd]
    exact_mod_cast Nat.pow_dvd_pow 2 h64
  have hpow : (2 : Int) ^ n = 2 * 2 ^ (n - 1) := by
    conv_lhs => rw [show n = (n - 1) + 1 by omega]
    ring
  rw [sext, BitVec.toInt_signExtend_of_le h64, hset, BitVec.toInt_setWidth, hmod]
  apply Int.bmod_eq_of_le <;> push_cast <;> omega

/-- An even value has bit 0 clear. -/
theorem bit0_of_even {v : Word} (h : lowBitsZero v 1 = true) : v.getLsbD 0 = false := by
  simp only [lowBitsZero, beq_iff_eq] at h
  rw [BitVec.getLsbD, Nat.testBit_zero]
  simp
  omega

/-- A multiple of 4096 is its upper part over twelve zeros. -/
theorem append_zero12 {v : Word} (h : lowBitsZero v 12 = true) :
    v.extractLsb' 12 20 ++ 0#12 = v.extractLsb' 0 32 := by
  simp only [lowBitsZero, beq_iff_eq] at h
  apply BitVec.eq_of_getLsbD_eq
  intro i hi
  simp only [BitVec.getLsbD_append, BitVec.getLsbD_extractLsb']
  by_cases h12 : i < 12
  · have : v.toNat.testBit i = false := by
      have := Nat.testBit_mod_two_pow v.toNat 12 i
      rw [h] at this
      simpa [h12] using this.symm
    simp [h12, hi, BitVec.getLsbD, this]
  · simp [h12, hi, show 12 + (i - 12) = i by omega, show i - 12 < 20 by omega]

theorem immI_encodeI {imm : Word} (h : fitsImm12 imm = true) (rs1 : Reg) (f3 : BitVec 3) (rd : Reg) (op : BitVec 5) :
    immI (encodeI imm rs1 f3 rd op) = imm := by
  simp only [fitsImm12, inRange, Bool.and_eq_true, decide_eq_true_eq] at h
  rw [immI, (encodeI_fields imm rd rs1 f3 op).1]
  exact sext_extractLsb' (by decide) (by decide) imm (by norm_num; omega) (by norm_num; omega)

theorem immS_encodeS {imm : Word} (h : fitsImm12 imm = true) (rs2 rs1 : Reg) (f3 : BitVec 3) (op : BitVec 5) :
    immS (encodeS imm rs2 rs1 f3 op) = imm := by
  simp only [fitsImm12, inRange, Bool.and_eq_true, decide_eq_true_eq] at h
  have hbits : (encodeS imm rs2 rs1 f3 op).extractLsb' 25 7 ++ (encodeS imm rs2 rs1 f3 op).extractLsb' 7 5 =
      imm.extractLsb' 0 12 := by
    apply BitVec.eq_of_getLsbD_eq
    intro i hi
    simp only [encodeS, BitVec.getLsbD_append, BitVec.getLsbD_extractLsb']
    interval_cases i <;> simp
  rw [immS, hbits]
  exact sext_extractLsb' (by decide) (by decide) imm (by norm_num; omega) (by norm_num; omega)

theorem immB_encodeB {imm : Word} (h : fitsImmB imm = true) (rs2 rs1 : Reg) (f3 : BitVec 3) (op : BitVec 5) :
    immB (encodeB imm rs2 rs1 f3 op) = imm := by
  simp only [fitsImmB, inRange, Bool.and_eq_true, decide_eq_true_eq] at h
  have h0 := bit0_of_even h.2
  have hbits : (encodeB imm rs2 rs1 f3 op).extractLsb' 31 1 ++ (encodeB imm rs2 rs1 f3 op).extractLsb' 7 1 ++
      (encodeB imm rs2 rs1 f3 op).extractLsb' 25 6 ++ (encodeB imm rs2 rs1 f3 op).extractLsb' 8 4 ++ 0#1 =
      imm.extractLsb' 0 13 := by
    apply BitVec.eq_of_getLsbD_eq
    intro i hi
    simp only [encodeB, BitVec.getLsbD_append, BitVec.getLsbD_extractLsb']
    interval_cases i <;> simp_all
  exact (congrArg sext hbits).trans
    (sext_extractLsb' (by decide) (by decide) imm (by norm_num; omega) (by norm_num; omega))

theorem immU_encodeU {imm : Word} (h : fitsImmU imm = true) (rd : Reg) (op : BitVec 5) :
    immU (encodeU (imm.extractLsb' 12 20) rd op) = imm := by
  simp only [fitsImmU, inRange, Bool.and_eq_true, decide_eq_true_eq] at h
  have hbits : (encodeU (imm.extractLsb' 12 20) rd op).extractLsb' 12 20 = imm.extractLsb' 12 20 := by
    apply BitVec.eq_of_getLsbD_eq
    intro i hi
    simp only [encodeU, BitVec.getLsbD_append, BitVec.getLsbD_extractLsb']
    interval_cases i <;> simp
  rw [immU, hbits, append_zero12 h.2]
  exact sext_extractLsb' (by decide) (by decide) imm (by norm_num; omega) (by norm_num; omega)

theorem immU20_encodeU {imm : Word} (h : fitsImmU20 imm = true) (rd : Reg) (op : BitVec 5) :
    immU20 (encodeU (imm.extractLsb' 0 20) rd op) = imm := by
  simp only [fitsImmU20, inRange, Bool.and_eq_true, decide_eq_true_eq] at h
  have hbits : (encodeU (imm.extractLsb' 0 20) rd op).extractLsb' 12 20 = imm.extractLsb' 0 20 := by
    apply BitVec.eq_of_getLsbD_eq
    intro i hi
    simp only [encodeU, BitVec.getLsbD_append, BitVec.getLsbD_extractLsb']
    interval_cases i <;> simp
  rw [immU20, hbits]
  exact sext_extractLsb' (by decide) (by decide) imm (by norm_num; omega) (by norm_num; omega)

theorem immJ_encodeJ {imm : Word} (h : fitsImmJ imm = true) (rd : Reg) (op : BitVec 5) :
    immJ (encodeJ imm rd op) = imm := by
  simp only [fitsImmJ, inRange, Bool.and_eq_true, decide_eq_true_eq] at h
  have h0 := bit0_of_even h.2
  have hbits : (encodeJ imm rd op).extractLsb' 31 1 ++ (encodeJ imm rd op).extractLsb' 12 8 ++
      (encodeJ imm rd op).extractLsb' 20 1 ++ (encodeJ imm rd op).extractLsb' 21 10 ++ 0#1 =
      imm.extractLsb' 0 21 := by
    apply BitVec.eq_of_getLsbD_eq
    intro i hi
    simp only [encodeJ, BitVec.getLsbD_append, BitVec.getLsbD_extractLsb']
    interval_cases i <;> simp_all
  exact (congrArg sext hbits).trans
    (sext_extractLsb' (by decide) (by decide) imm (by norm_num; omega) (by norm_num; omega))

/-! ## The remaining fields of the formats that split their immediate -/

theorem encodeB_fields (imm : Word) (rs2 rs1 : Reg) (f3 : BitVec 3) (op : BitVec 5) :
    let w := encodeB imm rs2 rs1 f3 op
    rs2Of w = regField rs2 ∧ rs1Of w = regField rs1 ∧ funct3Of w = f3 ∧ op5Of w = op ∧ lenBits w = 0b11#2 := by
  refine ⟨?_, ?_, ?_, ?_, ?_⟩ <;> apply BitVec.eq_of_getLsbD_eq <;> intro i hi <;>
    simp only [rs2Of, rs1Of, funct3Of, op5Of, lenBits, encodeB, BitVec.getLsbD_append, BitVec.getLsbD_extractLsb'] <;>
    interval_cases i <;> simp

theorem encodeU_fields (field : BitVec 20) (rd : Reg) (op : BitVec 5) :
    let w := encodeU field rd op
    w.extractLsb' 12 20 = field ∧ rdOf w = regField rd ∧ op5Of w = op ∧ lenBits w = 0b11#2 := by
  refine ⟨?_, ?_, ?_, ?_⟩ <;> apply BitVec.eq_of_getLsbD_eq <;> intro i hi <;>
    simp only [rdOf, op5Of, lenBits, encodeU, BitVec.getLsbD_append, BitVec.getLsbD_extractLsb'] <;>
    interval_cases i <;> simp

theorem encodeJ_fields (imm : Word) (rd : Reg) (op : BitVec 5) :
    let w := encodeJ imm rd op
    rdOf w = regField rd ∧ op5Of w = op ∧ lenBits w = 0b11#2 := by
  refine ⟨?_, ?_, ?_⟩ <;> apply BitVec.eq_of_getLsbD_eq <;> intro i hi <;>
    simp only [rdOf, op5Of, lenBits, encodeJ, BitVec.getLsbD_append, BitVec.getLsbD_extractLsb'] <;>
    interval_cases i <;> simp

end Sys2Proof
end

