-- ==== Sys2Proof/Laws/PerInstr.lean ====
section
/-! SUPPORT. Statements about every instruction as syntax, one lemma per constructor. -/

namespace Sys2Proof.Laws.EncodedRow

/-- The row of the opcode map an instruction is encoded under: its opcode and its length bits (R97, R100). -/
def opcodeOf : Instr → BitVec 5
  | .jal _ _ => 0b11011#5
  | .jalr _ _ _ => 0b11001#5
  | .lui _ _ => 0b01101#5
  | .auipc _ _ => 0b00101#5
  | .addi _ _ _ => 0b00100#5
  | .add _ _ _ => 0b01100#5
  | .blt _ _ _ => 0b11000#5
  | .lb _ _ _ => 0b00000#5
  | .sb _ _ _ => 0b01000#5

/-- The encoding of an instruction, well-formed or not, is a 4-byte word under its own opcode. -/
def Statement (i : Instr) : Prop := op5Of (encode i) = opcodeOf i ∧ lenBits (encode i) = 0b11#2

theorem jal (rd : Reg) (imm : Word) : Statement (.jal rd imm) := (encodeJ_fields imm rd _).2

theorem jalr (rd rs1 : Reg) (imm : Word) : Statement (.jalr rd rs1 imm) :=
  (encodeI_fields imm rd rs1 _ _).2.2.2.2

theorem lui (rd : Reg) (imm : Word) : Statement (.lui rd imm) := (encodeU_fields _ rd _).2.2

theorem auipc (rd : Reg) (imm : Word) : Statement (.auipc rd imm) := (encodeU_fields _ rd _).2.2

theorem addi (rd rs1 : Reg) (imm : Word) : Statement (.addi rd rs1 imm) :=
  (encodeI_fields imm rd rs1 _ _).2.2.2.2

theorem add (rd rs1 rs2 : Reg) : Statement (.add rd rs1 rs2) :=
  (encodeR_fields rd rs1 rs2 _ _ _).2.2.2.2.2

theorem blt (rs1 rs2 : Reg) (imm : Word) : Statement (.blt rs1 rs2 imm) := (encodeB_fields imm rs2 rs1 _ _).2.2.2

theorem lb (rd rs1 : Reg) (imm : Word) : Statement (.lb rd rs1 imm) := (encodeI_fields imm rd rs1 _ _).2.2.2.2

theorem sb (rs1 rs2 : Reg) (imm : Word) : Statement (.sb rs1 rs2 imm) :=
  (encodeS_fields imm rs1 rs2 _ _).2.2.2.2.2

end Sys2Proof.Laws.EncodedRow
end

