-- ==== Sys2Proof/Laws/Step.lean ====
section
/-! SUPPORT. One step taken apart: which instruction ran, and the little a completed instruction can do to memory, to
the trace and to the parameters. -/

namespace Sys2Proof.Machine

theorem decoded_toOption_eq_some {d : Decoded} {i : Instr} : d.toOption = some i ↔ d = .ok i := by
  cases d <;> simp [Decoded.toOption]

/-- The step of a state that runs `i` is the meaning of `i`. -/
theorem step_of_runs {s : State} {i : Instr} (h : s.runs i) : step s = exec i s := by
  rw [step_of_admitted h.1, h.2]
  rfl

/-- A completed step is a completed instruction. -/
theorem step_eq_next {s t : State} : step s = .next t ↔ ∃ i, s.runs i ∧ exec i s = .next t := by
  constructor
  · intro h
    cases ha : s.fetchAdmitted
    · rw [step_of_not_admitted ha] at h
      cases h
    · rw [step_of_admitted ha] at h
      cases hd : s.fetchedInstr with
      | ok i =>
        rw [hd] at h
        exact ⟨i, ⟨ha, hd⟩, h⟩
      | rejected =>
        rw [hd] at h
        cases h
  · rintro ⟨i, hr, hi⟩
    rw [step_of_runs hr, hi]

/-- A meaning does not see what register 0 held. -/
theorem exec_forceZero (i : Instr) (s : State) : exec i s.forceZero = exec i s := by
  cases i <;> simp only [exec, execJal, execJalr, execLui, execAuipc, execAddi, execAdd, execBlt, execLb, execSb,
    runPlain, runTransfer, protocol_forceZero]

/-- Everything a completed instruction can do to memory and to the trace: nothing, one byte stored off the port, or
one event for the port; never to the parameters. -/
theorem exec_effects {i : Instr} {s t : State} (h : exec i s = .next t) :
    (t.outputPort = s.outputPort ∧ t.sinkAttached = s.sinkAttached) ∧
    ((t.mem = s.mem ∧ t.trace = s.trace) ∨
      (∃ (ea : Word) (b : Byte), ea ≠ s.outputPort ∧ ea.toNat < s.mem.size ∧ t.mem = s.mem.put ea.toNat b ∧
        t.trace = s.trace) ∨
      ∃ b : Byte, t.mem = s.mem ∧ t.trace = s.trace ++ [⟨b, s.outputPort⟩]) := by
  cases i with
  | jal => rw [exec_jal] at h; cases h; simp
  | jalr => rw [exec_jalr] at h; cases h; simp
  | lui => rw [exec_lui] at h; cases h; simp
  | auipc => rw [exec_auipc] at h; cases h; simp
  | addi => rw [exec_addi] at h; cases h; simp
  | add => rw [exec_add] at h; cases h; simp
  | blt => rw [exec_blt] at h; cases h; simp
  | lb => rw [exec_lb_of_lt (exec_lb_next h)] at h; cases h; simp
  | sb =>
    rcases exec_sb_next h with ⟨h1, h2⟩ | ⟨h1, h2⟩
    · rw [exec_sb_at_port h1 h2] at h; cases h; simp [h1]
    · rw [exec_sb_of_lt h1 h2] at h; cases h
      exact ⟨⟨rfl, rfl⟩, .inr (.inl ⟨_, _, h1, h2, rfl, rfl⟩)⟩

/-! ## Runs -/

theorem runsTo_zero {s t : State} : runsTo 0 s t ↔ s = t := by
  unfold runsTo
  simp only [Host.Core.run]
  exact ⟨fun h => by injection h, fun h => by rw [h]⟩

/-- A run of `k + 1` steps is a completed step and a run of `k`. -/
theorem runsTo_succ {k : Nat} {s t : State} : runsTo (k + 1) s t ↔ ∃ u, step s = .next u ∧ runsTo k u t := by
  unfold runsTo
  simp only [Host.Core.run]
  rw [show Sys2Proof.core.step s = step s from rfl]
  cases step s with
  | next u =>
    constructor
    · exact fun h => ⟨u, rfl, h⟩
    · rintro ⟨v, hv, h⟩
      cases hv
      exact h
  | fault =>
    constructor
    · intro h
      cases h
    · rintro ⟨_, h, _⟩
      cases h
  | refused =>
    constructor
    · intro h
      cases h
    · rintro ⟨_, h, _⟩
      cases h

end Sys2Proof.Machine
end

