-- ==== Sys2Proof/Tests/Slice0.lean ====
section
/-! SUPPORT. The model's own tests and the witnesses of the statements' hypotheses. Expected values are those of
spec/95_test_vectors.md, whose vector is named, or a hand calculation from the rule named. -/

namespace Sys2Proof.Tests

open Sys2Proof Sys2Proof.Machine

/-! ## Small states -/

/-- The vectors' conventions: capacity 0x2000, the port at 0x1000, every register and byte not listed 0. -/
def start (pc : Word) (regs : List (Reg × Word)) (cells : List Host.Cell) : State :=
  regs.foldl (fun s p => s.writeReg p.1 p.2)
    { State.launch resetParams with pc := pc, mem := { size := 0x2000, cells := cells } }

/-- `start` at 0x100 with an instruction word placed there. -/
def at100 (w : Nat) (regs : List (Reg × Word)) (cells : List Host.Cell) : State :=
  (start 0x100 regs cells).withFetchWord 32 w

/-- A field of the next state, if the step completes. -/
def after {α : Type} (r : Result) (f : State → α) : Option α :=
  match r with
  | .next t => some (f t)
  | .fault _ => none
  | .refused _ => none

/-- The fault, if the step ends in one. -/
def faultOf (r : Result) : Option Fault :=
  match r with
  | .next _ => none
  | .fault f => some f
  | .refused _ => none

/-- The refusal, if there is one. -/
def refusalOf (r : Result) : Option Refusal :=
  match r with
  | .next _ => none
  | .fault _ => none
  | .refused x => some x

/-- The pc and two registers. -/
def view (a b : Reg) (t : State) : Word × Word × Word := (t.pc, t.readReg a, t.readReg b)

/-! ## WellFormed: one ill-formed term for each check, and the boundary it accepts -/

theorem test_wf_imm12_above : (Instr.addi 1 2 2048).wellFormed = false := by decide
theorem test_wf_imm12_below : (Instr.lb 1 2 (-2049)).wellFormed = false := by decide
theorem test_wf_imm12_bounds :
    (Instr.sb 1 2 2047).wellFormed = true ∧ (Instr.jalr 1 2 (-2048)).wellFormed = true := by decide
theorem test_wf_branch_range : (Instr.blt 1 2 4096).wellFormed = false := by decide
theorem test_wf_branch_odd : (Instr.blt 1 2 3).wellFormed = false := by decide
theorem test_wf_jump_range : (Instr.jal 1 (-1048578)).wellFormed = false := by decide
theorem test_wf_jump_odd : (Instr.jal 1 1).wellFormed = false := by decide
theorem test_wf_lui_range : (Instr.lui 1 524288).wellFormed = false := by decide
theorem test_wf_auipc_range : (Instr.auipc 1 0x80000000).wellFormed = false := by decide
theorem test_wf_auipc_low_bits : (Instr.auipc 1 4097).wellFormed = false := by decide
theorem test_wf_add : (Instr.add 0 31 31).wellFormed = true := by decide

/-! ## Decoding: each constructor's word written out field by field from R84 to R100 -/

/-- J format: imm[20] | imm[10:1] | imm[11] | imm[19:12] | rd | op5 | 11. Offset 2048 is imm[11] alone (D-JAL-5). -/
theorem test_decode_jal : decodeInstrWord
    (0b0#1 ++ 0b0000000000#10 ++ 0b1#1 ++ 0b00000000#8 ++ 0b00101#5 ++ 0b11011#5 ++ 0b11#2) =
    .ok (.jal 5 2048) := by decide

/-- I format: imm[11:0] | rs1 | 000 | rd | op5 | 11 (D-JALR-2). -/
theorem test_decode_jalr : decodeInstrWord
    (0b111111111111#12 ++ 0b00101#5 ++ 0b000#3 ++ 0b00001#5 ++ 0b11001#5 ++ 0b11#2) = .ok (.jalr 1 5 (-1)) := by decide

/-- U format: imm[31:12] | rd | op5 | 11 (S1). -/
theorem test_decode_lui : decodeInstrWord
    (0b00000000000000111100#20 ++ 0b11000#5 ++ 0b01101#5 ++ 0b11#2) = .ok (.lui 24 0x3C) := by decide

/-- The source's own fixture, the bytes `37 cc 03 00` (S1). -/
theorem test_decode_fixture : decodeInstr 0x37 0xCC 0x03 0x00 = .ok (.lui 24 0x3C) := by decide

/-- U format, shifted form (D-AUIPC-4). -/
theorem test_decode_auipc : decodeInstrWord
    (0b10000000000000000000#20 ++ 0b00110#5 ++ 0b00101#5 ++ 0b11#2) = .ok (.auipc 6 (-0x80000000)) := by decide

/-- I format (D-ADDI-4). -/
theorem test_decode_addi : decodeInstrWord
    (0b100000000000#12 ++ 0b00110#5 ++ 0b000#3 ++ 0b00101#5 ++ 0b00100#5 ++ 0b11#2) =
    .ok (.addi 5 6 (-2048)) := by decide

/-- R format: funct7 | rs2 | rs1 | funct3 | rd | op5 | 11 (D-ADD-1). -/
theorem test_decode_add : decodeInstrWord
    (0b0000000#7 ++ 0b00110#5 ++ 0b00101#5 ++ 0b000#3 ++ 0b00111#5 ++ 0b01100#5 ++ 0b11#2) =
    .ok (.add 7 5 6) := by decide

/-- B format: imm[12] | imm[10:5] | rs2 | rs1 | 100 | imm[4:1] | imm[11] | op5 | 11; offset -0x34 (S2). -/
theorem test_decode_blt : decodeInstrWord
    (0b1#1 ++ 0b111110#6 ++ 0b00110#5 ++ 0b00101#5 ++ 0b100#3 ++ 0b0110#4 ++ 0b1#1 ++ 0b11000#5 ++ 0b11#2) =
    .ok (.blt 5 6 (-0x34)) := by decide

/-- I format (D-LB-3). -/
theorem test_decode_lb : decodeInstrWord
    (0b011111111111#12 ++ 0b01011#5 ++ 0b000#3 ++ 0b01010#5 ++ 0b00000#5 ++ 0b11#2) = .ok (.lb 10 11 2047) := by decide

/-- S format: imm[11:5] | rs2 | rs1 | 000 | imm[4:0] | op5 | 11 (D-SB-5). -/
theorem test_decode_sb : decodeInstrWord
    (0b0000000#7 ++ 0b00101#5 ++ 0b00000#5 ++ 0b000#3 ++ 0b01011#5 ++ 0b01000#5 ++ 0b11#2) = .ok (.sb 0 5 11) := by
  decide

/-- Encodings that are no instruction, each rejected by its rule (D-UNK-1, 3, 10, 11, 15, D-C-1). -/
theorem test_rejections :
    decodeInstrWord 0x406283B3 = .rejected .addFunct7 ∧ decodeInstrWord 0x006293B3 = .rejected .functionCode ∧
    decodeInstrWord 0x00009067 = .rejected .jalrFunctionCode ∧ decodeInstrWord 0x00000073 = .rejected .noTableEntry ∧
    decodeInstrWord 0xFFFFFFFF = .rejected .noTableEntry ∧ decodeInstr 0 0 0 0 = .rejected .compressed := by decide

/-- The record of an `Unknown` branch keeps the format decoder's flags and slots (D-UNK-8). -/
theorem test_unknown_record : decodeWord 0x00628463 0x100 =
    ⟨.unknown, 0x100, 4, { fmtB := true, ct := true }, 3, 5, 6, 8⟩ := by decide

/-- The packed flags of a branch: FMT_B is bit 3 and CT bit 6 (R133). -/
theorem test_flags_pack : (decodeWord 0xFC62C6E3 0).flags.pack = 0b01001000#8 := by decide

/-- The host's table word, read by the same decoder (D-LB-4). -/
theorem test_decodeTableWord : decodeTableWord 32 0x80058503 = some (.lb 10 11 (-2048)) := by decide

/-! ## One step each -/

/-- V-JAL-1, V-JAL-5. -/
theorem test_jal_forward : after (step (at100 0x00C000EF [] [])) (view 1 2) = some (0x10C, 0x104, 0) := by decide
theorem test_jal_wraps : after (step (at100 0x800000EF [] [])) (view 1 2) = some (0xFFFFFFFFFFF00100, 0x104, 0) := by
  decide

/-- V-JALR-4: rd = rs1. V-JALR-5: the sum wraps and bit 0 is cleared. -/
theorem test_jalr_same_register :
    after (step (at100 0x008282E7 [(5, 0x300)] [])) (view 5 1) = some (0x308, 0x104, 0) := by decide
theorem test_jalr_wraps :
    after (step (at100 0x003280E7 [(5, -1)] [])) (view 5 1) = some (2, -1, 0x104) := by decide

/-- V-LUI-1, V-LUI-2. -/
theorem test_lui_fixture : after (step (at100 0x0003CC37 [] [])) (view 24 0) = some (0x104, 0x3C000, 0) := by decide
theorem test_lui_negative :
    after (step (at100 0x800002B7 [] [])) (view 5 0) = some (0x104, 0xFFFFFFFF80000000, 0) := by decide

/-- V-AUIPC-2, V-AUIPC-3. -/
theorem test_auipc_shifted_once : after (step (at100 0x00001317 [] [])) (view 6 0) = some (0x104, 0x1100, 0) := by
  decide
theorem test_auipc_wraps :
    after (step (at100 0xFFFFF317 [] [])) (view 6 0) = some (0x104, 0xFFFFFFFFFFFFF100, 0) := by decide

/-- V-ADDI-1, V-ADDI-4. -/
theorem test_addi_wraps :
    after (step (at100 0x00130293 [(5, 0x77), (6, -1)] [])) (view 5 6) = some (0x104, 0, -1) := by decide
theorem test_addi_negative :
    after (step (at100 0x80030293 [(6, 0x1000)] [])) (view 5 6) = some (0x104, 0x800, 0x1000) := by decide

/-- D-ADD-3 by R211: the destination is both sources. D-ADD-2 by R23: a write to x0 is discarded. -/
theorem test_add_all_same :
    after (step (at100 0x005282B3 [(5, 0x8000000000000001)] [])) (view 5 0) = some (0x104, 2, 0) := by decide
theorem test_add_to_zero :
    after (step (at100 0x00628033 [(5, 9), (6, 1)] [])) (view 0 5) = some (0x104, 0, 9) := by decide

/-- V-BLT-1 (taken) and V-BLT-5 (an unsigned compare would take it). -/
theorem test_blt_taken :
    after (step (at100 0xFC62C6E3 [(5, 5), (6, 6)] [])) (view 5 6) = some (0xCC, 5, 6) := by decide
theorem test_blt_signed :
    after (step (at100 0x0062C463 [(6, -1)] [])) (view 5 6) = some (0x104, 0, -1) := by decide

/-- V-LB-2 and V-LB-6. -/
theorem test_lb_sign :
    after (step (at100 0x00058503 [(11, 0x400)] [(0x400, 0x80)])) (view 10 11) =
      some (0x104, 0xFFFFFFFFFFFFFF80, 0x400) := by decide
theorem test_lb_outside :
    faultOf (step (at100 0x00058503 [(11, 0x2000)] [])) = some (.accessFault 0x2000) := by decide

/-- V-SB-1 and V-SB-3. -/
theorem test_sb_low_byte :
    after (step (at100 0x00C50023 [(10, 0x400), (12, 0x1234567890ABCDEF)] [(0x3FF, 0x11), (0x400, 0x22), (0x401, 0x33)]))
      (fun t => (t.pc, t.mem.byteAt 0x3FF, t.mem.byteAt 0x400, t.mem.byteAt 0x401, t.trace)) =
      some (0x104, 0x11, 0xEF, 0x33, []) := by decide
theorem test_sb_port :
    after (step (at100 0xFEC50FA3 [(10, 0x1001), (12, 0xFF)] [(0x1000, 0x33)]))
      (fun t => (t.pc, t.mem.byteAt 0x1000, t.trace)) = some (0x104, 0x33, [⟨0xFF, 0x1000⟩]) := by decide

/-! ## Failing (V-ILL-2, V-ILL-5, V-FF-1 to V-FF-5) -/

theorem test_illegal :
    faultOf (step (at100 0x406283B3 [(5, 9)] [])) = some .illegalInstruction ∧
    faultOf (step (at100 0x00000000 [(5, 9)] [])) = some .illegalInstruction := by decide

theorem test_fetch_faults :
    faultOf (step (start 0x2000 [] [])) = some (.fetchFault 0x2000) ∧
    faultOf (step (start (-4) [] [])) = some (.fetchFault (-4)) ∧
    faultOf (step (start 0x1FFE [] [(0x1FFE, 0x13)])) = some (.fetchFault 0x1FFE) := by decide

theorem test_last_word_runs : after (step (start 0x1FFC [] [(0x1FFC, 0x13)])) State.pc = some 0x2000 := by decide
theorem test_last_byte_is_classified : faultOf (step (start 0x1FFF [] [])) = some .illegalInstruction := by decide

/-- A port store with no sink, and a record that was not fetched at pc (U16, U21). -/
theorem test_refusals :
    refusalOf (step { at100 0x00C50023 [(10, 0x1000)] [] with sinkAttached := false }) = some .noOutputSink ∧
    refusalOf (engineStep (decodeWord 0x00C50023 0x104) (start 0x100 [] [])) = some .foreignRecord := by decide

/-- The forced register: x0 stored as 7 reads 0 and is 0 afterwards (R41), also when the step fails (R177). -/
theorem test_forced_zero :
    after (step (at100 0x00628033 [(0, 7)] [])) (view 0 5) = some (0x104, 0, 0) ∧
    (hostStep (at100 0x00000073 [(0, 7)] [])).1.readReg 0 = 0 := by decide

/-- The host's step gives the status and the state (R270). -/
theorem test_host_step :
    (hostStep (at100 0x00000013 [] [])).2 = .completed ∧ (hostStep (at100 0x00000013 [] [])).1.getPc = 0x104 ∧
    (hostStep (at100 0x00500293 [] [])).1.getRegister 5 = 5 := by decide

/-- The reset memory has the canonical form. -/
theorem test_reset_memory : State.reset.mem.wf := by decide

/-! ## Witnesses: states and operands that meet the hypotheses of the statements -/

/-- A state with a sink, x10 = 0x400, x11 = the port, x13 the last address, x14 just outside. -/
def witness : State :=
  start 0x100 [(10, 0x400), (11, 0x1000), (12, 0xAB), (13, 0x1FFF), (14, 0x2000)] [(0x400, 0x80)]

/-- The same state without a sink. -/
def witnessNoSink : State := { witness with sinkAttached := false }

theorem witness_SignAndZeroExtension : (63 : Nat) + 1 ≤ 64 ∧ (0 : Nat) + 1 ≤ 64 := by decide

theorem witness_SignExtensionBoundaries_I :
    (0x7FF30293#32).extractLsb' 20 12 = 0x7FF#12 ∧ (0x80030293#32).extractLsb' 20 12 = 0x800#12 ∧
    (0xFFF28293#32).extractLsb' 20 12 = 0xFFF#12 := by decide
theorem witness_SignExtensionBoundaries_S :
    (0x7EC50FA3#32).extractLsb' 25 7 ++ (0x7EC50FA3#32).extractLsb' 7 5 = 0x7FF#12 ∧
    (0x80C50023#32).extractLsb' 25 7 ++ (0x80C50023#32).extractLsb' 7 5 = 0x800#12 ∧
    (0xFEC50FA3#32).extractLsb' 25 7 ++ (0xFEC50FA3#32).extractLsb' 7 5 = 0xFFF#12 := by decide
theorem witness_SignExtensionBoundaries_B :
    0x7E62CFE3#32 &&& 0xFE000F80#32 = 0x7E000F80#32 ∧ 0x8062C063#32 &&& 0xFE000F80#32 = 0x80000000#32 ∧
    0xFE62CFE3#32 &&& 0xFE000F80#32 = 0xFE000F80#32 := by decide
theorem witness_SignExtensionBoundaries_UJ :
    (0x7FFFF317#32).extractLsb' 12 20 = 0x7FFFF#20 ∧ (0x80000317#32).extractLsb' 12 20 = 0x80000#20 ∧
    (0xFFFFF317#32).extractLsb' 12 20 = 0xFFFFF#20 := by decide

theorem witness_DecodeOfEncodeIsIdentity :
    (Instr.jal 1 1048574).wellFormed = true ∧ (Instr.jalr 1 5 (-2048)).wellFormed = true ∧
    (Instr.lui 31 (-524288)).wellFormed = true ∧ (Instr.auipc 6 2147479552).wellFormed = true ∧
    (Instr.addi 5 6 2047).wellFormed = true ∧ (Instr.add 0 31 31).wellFormed = true ∧
    (Instr.blt 5 6 (-4096)).wellFormed = true ∧ (Instr.lb 10 11 (-1)).wellFormed = true ∧
    (Instr.sb 0 31 2047).wellFormed = true := by decide

theorem witness_EncodeOfDecodeIsIdentity : decodeInstr 0x37 0xCC 0x03 0x00 = .ok (.lui 24 0x3C) := by decide

theorem witness_OpcodeRowsAreDisjoint :
    (⟨.add, 0xFE00707F#32, 0x00000033#32⟩ : OpcodeRow) ∈ opcodeRows ∧
    OpcodeRow.admits ⟨.add, 0xFE00707F#32, 0x00000033#32⟩ 0x006283B3#32 = true := by decide

theorem witness_KnownIdIffRowAdmits : InstrId.jal ≠ .unknown ∧ (decodeBytes 0xEF 0x02 0x10 0 0x100).id = .jal := by
  decide

theorem witness_RecordProperties :
    (decodeBytes 0xB3 0x83 0x62 0 0).id ≠ .unknown ∧ (decodeBytes 0x73 0 0 0 0).id = .unknown ∧
    (decodeBytes 0xB3 0x83 0x62 0 0).flags.fmtR = true := by decide

/-- The masks of KnownRecords, and the first halves of the nine statements about one instruction each. -/
theorem witness_KnownRecords :
    0x001002EF#32 &&& 0x7F#32 = 0x6F#32 ∧ 0xFFF280E7#32 &&& 0x707F#32 = 0x67#32 ∧
    0x0003CC37#32 &&& 0x7F#32 = 0x37#32 ∧ 0xFFFFF317#32 &&& 0x7F#32 = 0x17#32 ∧
    0xFFF28293#32 &&& 0x707F#32 = 0x13#32 ∧ 0x006283B3#32 &&& 0xFE00707F#32 = 0x33#32 ∧
    0xFC62C6E3#32 &&& 0x707F#32 = 0x4063#32 ∧ 0x80058503#32 &&& 0x707F#32 = 0x3#32 ∧
    0xFEC50FA3#32 &&& 0x707F#32 = 0x23#32 := by decide

theorem witness_UnknownRecords_tables :
    op5Of 0x00000073 ∉ [0#5, 4#5, 5#5, 8#5, 12#5, 13#5, 24#5, 25#5, 27#5] ∧
    (op5Of 0x00059503 ∈ [0#5, 4#5] ∧ funct3Of 0x00059503 ≠ 0#3) ∧
    (op5Of 0x00C51023 = 8#5 ∧ funct3Of 0x00C51023 ≠ 0#3) ∧ (op5Of 0x00628463 = 24#5 ∧ funct3Of 0x00628463 ≠ 4#3) ∧
    (op5Of 0x00009067 = 25#5 ∧ funct3Of 0x00009067 ≠ 0#3) ∧ (op5Of 0x006293B3 = 12#5 ∧ funct3Of 0x006293B3 ≠ 0#3) ∧
    (op5Of 0x406283B3 = 12#5 ∧ funct7Of 0x406283B3 ≠ 0#7) := by decide
theorem witness_UnknownRecords_step :
    (decodeWord 0x00000073 0x100).id = .unknown ∧ (start 0x100 [] []).pc = 0x100 := by decide

theorem witness_CompressedRecord : (0xFE#8).extractLsb' 0 2 ≠ 0b11#2 ∧ (0x00#8).extractLsb' 0 2 ≠ 0b11#2 := by decide
theorem witness_RejectionsByRule : (0x73#8).extractLsb' 0 2 = 0b11#2 := by decide

theorem witness_MemoryPrimitives :
    witness.mem.wf ∧ witness.mem.size = 0x2000 ∧ (0x1FFC#64).toNat + 4 ≤ 0x2000 ∧ 0x2000 < (0x1FFD#64).toNat + 4 ∧
    (0x1FFF#64).toNat < 0x2000 ∧ 0x2000 ≤ (0x2000#64).toNat := by decide

theorem witness_CanonicalMemoriesAreEqual :
    (⟨2, [(0, 1), (1, 2)]⟩ : Memory).wf ∧ (cellsPut [(1, 2)] 0 1) = [(0, 1), (1, 2)] := by decide

theorem witness_FetchIsLittleEndian :
    (at100 0x00C000EF [] []).fetchAdmitted = true ∧
    ((at100 0x00C000EF [] []).mem.byteAt 0x100).extractLsb' 0 2 = 0b11#2 := by decide

theorem witness_FetchReadsOnlyTheInstruction :
    (at100 0x00C000EF [] []).pc = (at100 0x00C000EF [(5, 1)] [(0x104, 9)]).pc ∧
    (at100 0x00C000EF [] []).fetchAdmitted = true ∧ (at100 0x00C000EF [(5, 1)] [(0x104, 9)]).fetchAdmitted = true ∧
    (∀ k : Fin 4, (at100 0x00C000EF [] []).mem.byteAt (0x100 + k.val) =
      (at100 0x00C000EF [(5, 1)] [(0x104, 9)]).mem.byteAt (0x100 + k.val)) := by decide

theorem witness_StepRunsDecodedInstruction :
    (at100 0x00C000EF [] []).fetchAdmitted = true ∧ (at100 0x00C000EF [] []).fetchedInstr = .ok (.jal 1 12) := by decide

theorem witness_PlacedWordIsRunNext :
    State.reset.mem.wf ∧ State.reset.pc.toNat + 4 ≤ State.reset.mem.size ∧
    decodeTableWord 32 0x00C000EF = some (.jal 1 12) := by decide

theorem witness_JalrLinksAndJumps :
    0x00009067#32 &&& 0x7F#32 = 0x67#32 ∧ funct3Of 0x00009067 ≠ 0b000#3 := by decide

theorem witness_AddiAddsImmediate :
    0x00132293#32 &&& 0x7F#32 = 0x13#32 ∧ funct3Of 0x00132293 ≠ 0b000#3 := by decide

theorem witness_LbLoadsSignExtendedByte :
    (witness.x 13 + 0).toNat < witness.mem.size ∧ witness.mem.size ≤ (witness.x 13 + 1).toNat := by decide

theorem witness_SbStoresLowByteOrOutputs_port :
    witness.x 11 + 0 = witness.outputPort ∧ witness.sinkAttached = true := by decide
theorem witness_SbStoresLowByteOrOutputs_memory :
    witness.x 13 + 0 ≠ witness.outputPort ∧ (witness.x 13 + 0).toNat < witness.mem.size ∧ witness.mem.wf := by decide
theorem witness_SbStoresLowByteOrOutputs_outside :
    witness.x 13 + 1 ≠ witness.outputPort ∧ witness.mem.size ≤ (witness.x 13 + 1).toNat := by decide

theorem witness_PortStoreWithoutSinkIsRefused :
    witnessNoSink.x 11 + 0 = witnessNoSink.outputPort ∧ witnessNoSink.sinkAttached = false := by decide

/-- Each of the nine instructions has an access the machine has. -/
theorem witness_EveryInstructionCompletes :
    accessAllowed witness (.jal 1 4) ∧ accessAllowed witness (.jalr 1 10 0) ∧ accessAllowed witness (.lui 1 1) ∧
    accessAllowed witness (.auipc 1 4096) ∧ accessAllowed witness (.addi 1 1 1) ∧ accessAllowed witness (.add 1 2 3) ∧
    accessAllowed witness (.blt 1 2 4) ∧ accessAllowed witness (.lb 1 13 0) ∧ accessAllowed witness (.sb 11 12 0) ∧
    accessAllowed witness (.sb 13 12 0) := by
  refine ⟨trivial, trivial, trivial, trivial, trivial, trivial, trivial, ?_, .inl ?_, .inr ?_⟩
  · show (witness.x 13 + 0).toNat < witness.mem.size
    decide
  · decide
  · decide

/-- Completed instructions, for the clauses about `exec i s = .next t`: PcFollowsTheTable,
OnlyTheDestinationRegisterChanges, OnlyStoresChangeMemory, OutputExactlyOnPortStores, RegisterZeroAfterEveryStep. -/
theorem witness_completed_instructions :
    (∃ t, exec (.add 1 2 3) witness = .next t) ∧ (∃ t, exec (.lb 1 10 0) witness = .next t) ∧
    (∃ t, exec (.sb 10 12 0) witness = .next t ∧ t.mem.byteAt 0x400 ≠ witness.mem.byteAt 0x400) ∧
    ∃ t, exec (.sb 11 12 0) witness = .next t := by
  refine ⟨⟨_, exec_add ..⟩, ⟨_, exec_lb_of_lt (by decide)⟩, ⟨_, exec_sb_of_lt (by decide) (by decide), by decide⟩,
    ⟨_, exec_sb_at_port (by decide) (by decide)⟩⟩

/-- A completed step between states of the invariants: StepKeepsInvariant, PcStaysEven, ParametersNeverChange,
PortByteNeverChanges, TraceOnlyGrows. -/
theorem witness_completed_steps :
    (at100 0x00C50023 [(10, 0x1000), (12, 0x41)] []).Inv ∧ (at100 0x00C50023 [(10, 0x1000), (12, 0x41)] []).pcEven ∧
    ∃ t, step (at100 0x00C50023 [(10, 0x1000), (12, 0x41)] []) = .next t ∧
      runsTo 1 (at100 0x00C50023 [(10, 0x1000), (12, 0x41)] []) t ∧ t.trace = [⟨0x41, 0x1000⟩] := by
  have hr : (at100 0x00C50023 [(10, 0x1000), (12, 0x41)] []).runs (.sb 10 12 0) := ⟨by decide, by decide⟩
  have hs := (step_of_runs hr).trans (exec_sb_at_port (by decide) (by decide))
  refine ⟨⟨by decide, by decide⟩, by unfold State.pcEven; decide, _, hs, ?_, by decide⟩
  exact runsTo_succ.mpr ⟨_, hs, runsTo_zero.mpr rfl⟩

/-- Register 14 is no source of each of these: one that completes, one that ends in a fault. -/
theorem witness_OnlyTheSourceRegistersAreRead :
    (14 : Reg) ∉ sourcesOf (.sb 10 12 0) ∧ (14 : Reg) ∉ sourcesOf (.lb 14 13 1) ∧
    faultOf (exec (.lb 14 13 1) witness) = some (.accessFault 0x2000) ∧ (14 : Reg) ∉ sourcesOf (.jal 14 4) := by decide

/-- A failed step of each kind: FailureLeavesStateUnchanged, FailureIsFixedPoint, and the last clauses of
PcFollowsTheTable, FetchFaultIffNotAdmitted, IllegalInstructionIffUnknown, AccessFaultIffOutsideMemory. -/
theorem witness_failures :
    (hostStep (start 0x2000 [(0, 7)] [])).2 = .failed (.fetchFault 0x2000) ∧
    (hostStep (at100 0x00000073 [(0, 7)] [])).2 = .failed .illegalInstruction ∧
    (hostStep (at100 0x00058503 [(11, 0x2000)] [])).2 = .failed (.accessFault 0x2000) := by decide

theorem witness_NoRefusalWithSinkAttached :
    refusalOf (step { at100 0x00C50023 [(10, 0x1000)] [] with sinkAttached := false }) = some .noOutputSink := by decide

/-- A state that has ended, and its instruction (V-JAL-6). -/
theorem witness_NormalEndIsSelfLoop :
    (at100 0x000000EF [(1, 0x104)] []).runs (.jal 1 0) ∧ selfLoop (at100 0x000000EF [(1, 0x104)] []) (.jal 1 0) :=
  ⟨⟨by decide, by decide⟩, by decide, .inr (by decide)⟩

/-- The stored byte is the first of the next instruction. -/
theorem witness_StoreIsSeenByNextFetch :
    (start 0x100 [(10, 0x104), (12, 0x13)] []).mem.wf ∧
    (start 0x100 [(10, 0x104), (12, 0x13)] []).x 10 + 0 ≠ 0x1000 ∧
    ((start 0x100 [(10, 0x104), (12, 0x13)] []).x 10 + 0).toNat < 0x2000 ∧
    after (exec (.sb 10 12 0) (start 0x100 [(10, 0x104), (12, 0x13)] [])) State.fetchAdmitted = some true := by decide

theorem witness_LoadReturnsStoredByte :
    witness.mem.wf ∧ witness.x 10 + 1 ≠ witness.outputPort ∧ (witness.x 10 + 1).toNat < witness.mem.size ∧
    witness.x 10 + 1 = witness.x 10 + 1 := by decide

theorem witness_LoadCopiesTheSection :
    0x1FFE + ([1, 2] : List Byte).length ≤ witness.mem.size ∧ witness.mem.wf ∧
    witness.mem.size < 0x1FFF + ([1, 2] : List Byte).length := by decide

theorem witness_LoadCopiesTheSection_fails :
    (hostLoad (.error .missingSection) witness).2 = .error .missingSection ∧
    (hostLoad (.ok ⟨0x1FFF, [1, 2], 0x100⟩) witness).2 = .error .overflow := ⟨rfl, rfl⟩

theorem witness_LaunchAndResetMeetInvariant : validParams resetParams := by
  show Memory.wf _
  decide

end Sys2Proof.Tests
end

/-! ## Extension

Sign and zero extension, bit by bit and as a number (R12 of spec/00_scope.md). -/

namespace Sys2Proof

/-- Below the width, an extension keeps the bits of the value. -/
theorem sext_getLsbD_of_lt {n : Nat} (v : BitVec n) {i : Nat} (hn : n ≤ 64) (hi : i < n) :
    (sext v).getLsbD i = v.getLsbD i := by
  have h64 : i < 64 := by omega
  rw [sext, BitVec.getLsbD_signExtend]
  simp [hi, h64]

/-- From the width up to bit 63, sign extension repeats the top bit. -/
theorem sext_getLsbD_of_ge {n : Nat} (v : BitVec n) {i : Nat} (hi : n ≤ i) (h64 : i < 64) :
    (sext v).getLsbD i = v.msb := by
  rw [sext, BitVec.getLsbD_signExtend]
  simp [Nat.not_lt.mpr hi, h64]

/-- Sign extension keeps the signed number. -/
theorem sext_toInt {n : Nat} (v : BitVec n) (hn : n ≤ 64) : (sext v).toInt = v.toInt :=
  BitVec.toInt_signExtend_of_le hn

theorem zext_getLsbD_of_lt {n : Nat} (v : BitVec n) {i : Nat} (hn : n ≤ 64) (hi : i < n) :
    (zext v).getLsbD i = v.getLsbD i := by
  have h64 : i < 64 := by omega
  simp [zext, h64]

/-- Zero extension puts zeros from the width up. -/
theorem zext_getLsbD_of_ge {n : Nat} (v : BitVec n) {i : Nat} (hi : n ≤ i) : (zext v).getLsbD i = false := by
  simp [zext, BitVec.getLsbD_of_ge v i hi]

/-- Settles O1: one lemma per clause, the top bit being bit `n` of `n + 1`. -/
theorem signAndZeroExtension : Obligations.SignAndZeroExtension := by
  intro n v hn
  have htop : v.msb = v.getLsbD n := BitVec.msb_eq_getLsbD_last v
  refine ⟨?_, fun i hi => sext_getLsbD_of_lt v hn (by omega), fun i hi h64 => ?_,
    fun i hi => zext_getLsbD_of_lt v hn (by omega), fun i hi => zext_getLsbD_of_ge v hi⟩
  · rw [sext_toInt v hn, BitVec.toInt_eq_msb_cond, htop]
    norm_cast
  · rw [sext_getLsbD_of_ge v hi h64, htop]

end Sys2Proof

/-! ## Memory primitives

The memory primitives of R14 of spec/00_scope.md: bounds, little-endian assembly, one byte written. -/

namespace Sys2Proof

/-- The four bytes of an assembled word, least significant first (R53, R82). -/
theorem assemble_bytes (b0 b1 b2 b3 : Byte) :
    (assemble b0 b1 b2 b3).extractLsb' 0 8 = b0 ∧ (assemble b0 b1 b2 b3).extractLsb' 8 8 = b1 ∧
    (assemble b0 b1 b2 b3).extractLsb' 16 8 = b2 ∧ (assemble b0 b1 b2 b3).extractLsb' 24 8 = b3 := by
  have hbyte (k : Nat) (b : Byte) (hb : ∀ i < 8, (assemble b0 b1 b2 b3).getLsbD (k + i) = b.getLsbD i) :
      (assemble b0 b1 b2 b3).extractLsb' k 8 = b :=
    BitVec.eq_of_getLsbD_eq fun i hi => by simp [hi, hb i hi]
  refine ⟨hbyte 0 b0 ?_, hbyte 8 b1 ?_, hbyte 16 b2 ?_, hbyte 24 b3 ?_⟩
  all_goals
    intro i hi
    simp only [assemble, BitVec.getLsbD_append]
    interval_cases i <;> simp

end Sys2Proof

namespace Sys2Proof.Machine

section
variable {m : Memory} {addr : Word}

theorem read1_eq_ite (m : Memory) (addr : Word) :
    m.read1 addr = if addr.toNat + 1 ≤ m.size then some (m.byteAt addr.toNat) else none := rfl

theorem read4_of_fits (h : addr.toNat + 4 ≤ m.size) :
    m.read4 addr = some (assemble (m.byteAt addr.toNat) (m.byteAt (addr.toNat + 1)) (m.byteAt (addr.toNat + 2))
      (m.byteAt (addr.toNat + 3))) := if_pos h

theorem read4_of_not_fits (h : m.size < addr.toNat + 4) : m.read4 addr = none := if_neg (Nat.not_le.mpr h)

theorem write1_of_lt (v : Byte) (h : addr.toNat < m.size) : m.write1 addr v = some (m.put addr.toNat v) := if_pos h

theorem write1_of_ge (v : Byte) (h : m.size ≤ addr.toNat) : m.write1 addr v = none := if_neg (Nat.not_lt.mpr h)

end

/-- Settles O16: each primitive by its bound; what a write leaves is `put`'s laws. -/
theorem memoryPrimitives : Obligations.MemoryPrimitives := by
  intro m addr
  exact ⟨read1_eq_ite m addr,
    fun hfit => ⟨_, read4_of_fits hfit, assemble_bytes _ _ _ _⟩,
    read4_of_not_fits,
    fun v hlt hwf => ⟨_, write1_of_lt v hlt, put_wf hwf hlt v, rfl, byteAt_put_self hwf _ v,
      fun _ hne => byteAt_put_of_ne m v hne⟩,
    fun v hge => write1_of_ge v hge⟩

end Sys2Proof.Machine

/-! ## Trace and step

The output trace along a run (R15, R63, R69), and the step as the meaning of the decoded instruction (R9, R181). -/

namespace Sys2Proof.Machine

/-- The trace of `t` is that of `s` followed by at most `k` events, each for the port of `s`. -/
def TraceExtended (k : Nat) (s t : State) : Prop :=
  ∃ new, t.trace = s.trace ++ new ∧ new.length ≤ k ∧ ∀ e ∈ new, e.addr = s.outputPort

theorem TraceExtended.of_trace_eq {s t : State} (k : Nat) (h : t.trace = s.trace) : TraceExtended k s t :=
  ⟨[], by simp [h], by simp, by simp⟩

/-- Extensions compose when the port stays where it is. -/
theorem TraceExtended.trans {j k : Nat} {s u t : State} (hsu : TraceExtended j s u)
    (hport : u.outputPort = s.outputPort) (hut : TraceExtended k u t) : TraceExtended (j + k) s t := by
  obtain ⟨new₁, htrace₁, hlen₁, haddr₁⟩ := hsu
  obtain ⟨new₂, htrace₂, hlen₂, haddr₂⟩ := hut
  refine ⟨new₁ ++ new₂, ?_, ?_, fun e he => ?_⟩
  · rw [htrace₂, htrace₁, List.append_assoc]
  · rw [List.length_append]
    omega
  · rcases List.mem_append.mp he with he | he
    · exact haddr₁ e he
    · exact (haddr₂ e he).trans hport

/-- A completed step keeps the port's address and extends the trace by at most one event. -/
theorem step_traceExtended {s t : State} (h : step s = .next t) :
    t.outputPort = s.outputPort ∧ TraceExtended 1 s t := by
  obtain ⟨i, -, hexec⟩ := step_eq_next.mp h
  obtain ⟨⟨hport, -⟩, ⟨-, htrace⟩ | ⟨_, _, -, -, -, htrace⟩ | ⟨b, -, htrace⟩⟩ := exec_effects hexec
  · exact ⟨hport, .of_trace_eq 1 htrace⟩
  · exact ⟨hport, .of_trace_eq 1 htrace⟩
  · exact ⟨hport, [⟨b, s.outputPort⟩], htrace, by simp, by simp⟩

/-- Settles O58, by induction on the number of steps. -/
theorem traceOnlyGrows : Obligations.TraceOnlyGrows := by
  intro k
  induction k with
  | zero =>
    intro s t h
    rw [runsTo_zero] at h
    exact TraceExtended.of_trace_eq 0 (by rw [h])
  | succ k ih =>
    intro s t h
    obtain ⟨u, hstep, hrun⟩ := runsTo_succ.mp h
    obtain ⟨hport, hone⟩ := step_traceExtended hstep
    rw [Nat.add_comm]
    exact hone.trans hport (ih u t hrun)

/-- Settles O21: an admitted fetch of the bytes of `i` is a state that runs `i`. -/
theorem stepRunsDecodedInstruction : Obligations.StepRunsDecodedInstruction :=
  fun _ _ hadmitted hfetched => step_of_runs ⟨hadmitted, hfetched⟩

end Sys2Proof.Machine

/-! ## Canonical memories

The canonical form makes memories with the same capacity and bytes the same data (R36; log entry 5). -/

namespace Sys2Proof.Machine

/-- Canonical cells list a byte exactly when it is what its address reads as and not the fill byte. -/
theorem mem_cells_iff {size : Nat} {cells : List Host.Cell} (h : cellsCanonical size cells) {a : Nat} {b : Byte} :
    (a, b) ∈ cells ↔ cellsGet cells a = b ∧ b ≠ fillByte := by
  obtain ⟨hsorted, hcells⟩ := h
  constructor
  · intro hab
    refine ⟨?_, (hcells _ hab).2⟩
    induction cells with
    | nil => cases hab
    | cons c rest ih =>
      obtain ⟨hbelow, hrest⟩ := List.pairwise_cons.mp hsorted
      rcases List.mem_cons.mp hab with rfl | hab
      · simp [cellsGet]
      · have hne : c.1 ≠ a := Nat.ne_of_lt (hbelow _ hab)
        simpa [cellsGet, hne] using ih hrest (fun d hd => hcells d (by simp [hd])) hab
  · rintro ⟨hget, hb⟩
    clear hsorted hcells
    induction cells with
    | nil => exact absurd hget.symm hb
    | cons c rest ih =>
      obtain ⟨k, x⟩ := c
      by_cases hk : k = a
      · simp_all [cellsGet]
      · exact List.mem_cons_of_mem _ (ih (by simpa [cellsGet, hk] using hget))

/-- Settles O17: the cells of the two memories are sorted and have the same members. -/
theorem canonicalMemoriesAreEqual : Obligations.CanonicalMemoriesAreEqual := by
  intro m n hm hn hsize hbytes
  rw [Memory.wf_iff] at hm hn
  obtain ⟨msize, mcells⟩ := m
  obtain ⟨nsize, ncells⟩ := n
  have : Std.Irrefl fun c d : Host.Cell => c.1 < d.1 := ⟨fun c => Nat.lt_irrefl c.1⟩
  have : Std.Antisymm fun c d : Host.Cell => c.1 < d.1 := ⟨fun _ _ hcd hdc => absurd hcd (Nat.lt_asymm hdc)⟩
  have hmem : ∀ c : Host.Cell, c ∈ mcells ↔ c ∈ ncells := fun (a, b) => by
    rw [mem_cells_iff hm.1, mem_cells_iff hn.1, show cellsGet mcells a = cellsGet ncells a from hbytes a]
  exact congrArg₂ Memory.mk hsize (hm.1.1.eq_of_mem_iff hn.1.1 (fun {c} => hmem c))

end Sys2Proof.Machine

/-! ## The meanings of the instructions

What every completed instruction does to the pc and the registers (R24, R27), and what stops one (R61, D11). -/

namespace Sys2Proof.Machine

/-- Every meaning is the step protocol around a handler (R170 to R176). -/
theorem exec_eq_protocol (i : Instr) (s : State) : ∃ ct handler, exec i s = protocol ct handler s := by
  cases i <;>
    simp only [exec, execJal, execJalr, execLui, execAuipc, execAddi, execAdd, execBlt, execLb, execSb, runPlain,
      runTransfer] <;>
    exact ⟨_, _, rfl⟩

/-- R176: a completed instruction leaves 0 in register 0. -/
theorem exec_readReg_zero {i : Instr} {s t : State} (h : exec i s = .next t) : t.readReg 0 = 0 := by
  obtain ⟨ct, handler, hexec⟩ := exec_eq_protocol i s
  obtain ⟨u, -, rfl⟩ := protocol_eq_next.mp (hexec.symm.trans h)
  rw [complete_readReg, x_zero]

/-- A completed instruction moves the pc as R27's table says and writes no register but its destination (R24). -/
theorem exec_pc_and_regs {i : Instr} {s t : State} (h : exec i s = .next t) :
    t.pc = newPc s i ∧ RegsKeptExcept (destOf i) s t := by
  unfold RegsKeptExcept
  cases i with
  | jal | jalr | lui | auipc | addi | add =>
    simp only [exec_jal, exec_jalr, exec_lui, exec_auipc, exec_addi, exec_add] at h
    cases h
    simp +contextual [newPc, destOf, x_writeReg]
  | blt => rw [exec_blt] at h; cases h; simp [newPc]
  | lb => rw [exec_lb_of_lt (exec_lb_next h)] at h; cases h; simp +contextual [newPc, destOf, x_writeReg]
  | sb =>
    rcases exec_sb_next h with ⟨hport, hsink⟩ | ⟨hport, hlt⟩
    · rw [exec_sb_at_port hport hsink] at h; cases h; simp [newPc]
    · rw [exec_sb_of_lt hport hlt] at h; cases h; simp [newPc]

/-- Settles O36: the register half of what a completed instruction does. -/
theorem onlyTheDestinationRegisterChanges : Obligations.OnlyTheDestinationRegisterChanges :=
  fun _ _ _ h => (exec_pc_and_regs h).2

theorem exec_sb_no_sink {rs1 rs2 : Reg} {imm : Word} {s : State} (h : s.x rs1 + imm = s.outputPort)
    (hs : s.sinkAttached = false) : exec (.sb rs1 rs2 imm) s = .refused .noOutputSink := by
  rw [exec_sb, runPlain, protocol_eq_refused]
  exact storeByte_at_port_no_sink h hs

/-- Settles O32: SB is the protocol around a store, and the store is refused. -/
theorem portStoreWithoutSinkIsRefused : Obligations.PortStoreWithoutSinkIsRefused :=
  fun _ _ _ _ hport hsink => exec_sb_no_sink hport hsink

/-- Only a port store without a sink is refused. -/
theorem exec_eq_refused {i : Instr} {s : State} {r : Refusal} (h : exec i s = .refused r) :
    s.sinkAttached = false ∧ r = .noOutputSink ∧ ∃ rs1 rs2 imm, i = .sb rs1 rs2 imm ∧ s.x rs1 + imm = s.outputPort := by
  cases i with
  | jal | jalr | lui | auipc | addi | add | blt =>
    simp only [exec_jal, exec_jalr, exec_lui, exec_auipc, exec_addi, exec_add, exec_blt] at h
    cases h
  | lb rd rs1 imm =>
    rcases Nat.lt_or_ge (s.x rs1 + imm).toNat s.mem.size with hlt | hge
    · rw [exec_lb_of_lt hlt] at h; cases h
    · rw [exec_lb_of_ge hge] at h; cases h
  | sb rs1 rs2 imm =>
    by_cases hport : s.x rs1 + imm = s.outputPort
    · cases hsink : s.sinkAttached
      · rw [exec_sb_no_sink hport hsink] at h; cases h
        exact ⟨rfl, rfl, rs1, rs2, imm, rfl, hport⟩
      · rw [exec_sb_at_port hport hsink] at h; cases h
    · rcases Nat.lt_or_ge (s.x rs1 + imm).toNat s.mem.size with hlt | hge
      · rw [exec_sb_of_lt hport hlt] at h; cases h
      · rw [exec_sb_of_ge hport hge] at h; cases h

end Sys2Proof.Machine

/-! ## The sources

An instruction reads no register but its sources (R24): the outcomes of two states that differ in another register agree
but for that register. -/

namespace Sys2Proof.Machine

/-- A register write is not read back from another register. -/
theorem x_writeReg_of_ne (s : State) {r q : Reg} (v : Word) (h : q ≠ r) : (s.writeReg r v).x q = s.x q := by
  simp [State.x, readReg_writeReg, h]

/-- `u` is `t` but for what register `r` holds; and where `r` is the destination, even that is the same. -/
structure AgreeBut (r : Reg) (dest : Option Reg) (t u : State) : Prop where
  pc : u.pc = t.pc
  mem : u.mem = t.mem
  output : OutputKept t u
  regs : ∀ q, q ≠ r ∨ dest = some q → u.x q = t.x q

section
variable {r : Reg} {dest : Option Reg} {t u : State}

theorem AgreeBut.forceZero_writeReg (s : State) (r : Reg) (v : Word) :
    AgreeBut r none s.forceZero (s.writeReg r v).forceZero :=
  ⟨rfl, rfl, ⟨⟨rfl, rfl⟩, rfl⟩, fun q hq => by
    rw [x_forceZero, x_forceZero, x_writeReg_of_ne s v (by simpa using hq)]⟩

theorem AgreeBut.writeReg (h : AgreeBut r none t u) (rd : Reg) (w : Word) :
    AgreeBut r (some rd) (t.writeReg rd w) (u.writeReg rd w) :=
  ⟨h.pc, h.mem, h.output, fun q hq => by
    by_cases hrd : q = rd
    · simp [x_writeReg, hrd]
    · rw [x_writeReg_of_ne t w hrd, x_writeReg_of_ne u w hrd]
      exact h.regs q (by simpa [Ne.symm hrd] using hq)⟩

theorem AgreeBut.setPc (h : AgreeBut r dest t u) (p : Word) : AgreeBut r dest (t.setPc p) (u.setPc p) :=
  ⟨rfl, h.mem, h.output, h.regs⟩

theorem AgreeBut.setMem (h : AgreeBut r dest t u) (m : Memory) : AgreeBut r dest (t.setMem m) (u.setMem m) :=
  ⟨h.pc, rfl, h.output, h.regs⟩

theorem AgreeBut.emit (h : AgreeBut r dest t u) (b : Byte) (ea : Word) : AgreeBut r dest (t.emit b ea) (u.emit b ea) :=
  ⟨h.pc, h.mem, ⟨h.output.1, by simp [h.output.2]⟩, h.regs⟩

end

/-- The outcomes of one instruction with a register at two values: the same stop, or states that agree but for it. -/
def OutcomesAgree (r : Reg) (dest : Option Reg) (o o' : Result) : Prop :=
  match o with
  | .next t => ∃ u, o' = .next u ∧ u.pc = t.pc ∧ u.mem = t.mem ∧ OutputKept t u ∧
      (∀ q, q ≠ r → u.readReg q = t.readReg q) ∧ (dest = some r → u.readReg r = t.readReg r)
  | .fault f => o' = .fault f
  | .refused x => o' = .refused x

/-- States that agree before the end of the protocol give outcomes that agree. -/
theorem AgreeBut.complete {r : Reg} {dest : Option Reg} {t u : State} (h : AgreeBut r dest t u) (ct : Bool) :
    OutcomesAgree r dest (.next (t.complete ct)) (.next (u.complete ct)) :=
  ⟨u.complete ct, rfl, by simp [h.pc], by simp [h.mem], by simpa [OutputKept, PortKept] using h.output,
    fun q hq => by simpa using h.regs q (.inl hq), fun hd => by simpa using h.regs r (.inr hd)⟩

/-- R24: the outcome depends on no register but the sources. -/
theorem exec_writeReg_of_not_source {i : Instr} (s : State) {r : Reg} (v : Word) (hr : r ∉ sourcesOf i) :
    OutcomesAgree r (destOf i) (exec i s) (exec i (s.writeReg r v)) := by
  have hstart := AgreeBut.forceZero_writeReg s r v
  have hx (q : Reg) (hq : q ∈ sourcesOf i) : (s.writeReg r v).x q = s.x q :=
    x_writeReg_of_ne s v fun h => hr (h ▸ hq)
  cases i with
  | jal rd imm =>
    rw [exec_jal, exec_jal]
    exact ((hstart.writeReg rd _).setPc _).complete true
  | jalr rd rs1 imm =>
    rw [exec_jalr, exec_jalr, hx rs1 (by simp [sourcesOf])]
    exact ((hstart.writeReg rd _).setPc _).complete true
  | lui rd imm =>
    rw [exec_lui, exec_lui]
    exact (hstart.writeReg rd _).complete false
  | auipc rd imm =>
    rw [exec_auipc, exec_auipc]
    exact (hstart.writeReg rd _).complete false
  | addi rd rs1 imm =>
    rw [exec_addi, exec_addi, hx rs1 (by simp [sourcesOf])]
    exact (hstart.writeReg rd _).complete false
  | add rd rs1 rs2 =>
    rw [exec_add, exec_add, hx rs1 (by simp [sourcesOf]), hx rs2 (by simp [sourcesOf])]
    exact (hstart.writeReg rd _).complete false
  | blt rs1 rs2 imm =>
    rw [exec_blt, exec_blt, hx rs1 (by simp [sourcesOf]), hx rs2 (by simp [sourcesOf])]
    exact (hstart.setPc _).complete true
  | lb rd rs1 imm =>
    have hx1 := hx rs1 (by simp [sourcesOf])
    rcases Nat.lt_or_ge (s.x rs1 + imm).toNat s.mem.size with hlt | hge
    · rw [exec_lb_of_lt hlt, exec_lb_of_lt (by rwa [hx1]), hx1]
      exact (hstart.writeReg rd _).complete false
    · rw [exec_lb_of_ge hge, exec_lb_of_ge (by rwa [hx1]), hx1]
      rfl
  | sb rs1 rs2 imm =>
    have hx1 := hx rs1 (by simp [sourcesOf])
    have hx2 := hx rs2 (by simp [sourcesOf])
    by_cases hport : s.x rs1 + imm = s.outputPort
    · cases hsink : s.sinkAttached
      · rw [exec_sb_no_sink hport hsink, exec_sb_no_sink (s := s.writeReg r v) (by rwa [hx1]) hsink]
        rfl
      · rw [exec_sb_at_port hport hsink, exec_sb_at_port (s := s.writeReg r v) (by rwa [hx1]) hsink, hx1, hx2]
        exact (hstart.emit _ _).complete false
    · rcases Nat.lt_or_ge (s.x rs1 + imm).toNat s.mem.size with hlt | hge
      · rw [exec_sb_of_lt hport hlt, exec_sb_of_lt (by rwa [hx1]) (by rwa [hx1]), hx1, hx2]
        exact (hstart.setMem _).complete false
      · rw [exec_sb_of_ge hport hge, exec_sb_of_ge (by rwa [hx1]) (by rwa [hx1]), hx1]
        rfl

/-- Settles O37: the outcomes agree, read off for each outcome. -/
theorem onlyTheSourceRegistersAreRead : Obligations.OnlyTheSourceRegistersAreRead := by
  intro i s r v hr
  have h := exec_writeReg_of_not_source s v hr
  cases hexec : exec i s <;> rw [hexec] at h <;> exact h

end Sys2Proof.Machine

/-! ## Decoded transfers

What the record of a decoded instruction says of the next pc (R27, R153): size, control-transfer flag, offset. -/

namespace Sys2Proof

@[simp] theorem decodeWord_size (w : InstrWord) (offset : Word) : (decodeWord w offset).size = 4 := by
  rcases op5_cases w with h | h | h | h | h | h | h | h | h | h
  · rw [decodeWord_load _ h]
  · rw [decodeWord_opImm _ h]
  · rw [decodeWord_auipc _ h]
  · rw [decodeWord_store _ h]
  · rw [decodeWord_op _ h]
  · rw [decodeWord_lui _ h]
  · rw [decodeWord_branch _ h]
  · rw [decodeWord_jalr _ h]
  · rw [decodeWord_jal _ h]
  · rw [decodeWord_unmapped _ h]

/-- A record whose id a function code decides is an instruction only when the code is the populated one (R140). -/
theorem toInstr_of_code {c : Prop} [Decidable c] {k : InstrId} {offset s0 s1 s2 : Word} {size n : Nat} {f : Flags}
    {i : Instr} (h : (Record.mk (if c then k else .unknown) offset size f n s0 s1 s2).toInstr = some i) :
    (Record.mk k offset size f n s0 s1 s2).toInstr = some i := by
  split_ifs at h with hc
  · exact h
  · cases h

/-- The byte offset an instruction adds to the pc, for the two that have one (R190, R220). -/
def pcOffset : Instr → Option Word
  | .jal _ imm => some imm
  | .blt _ _ imm => some imm
  | .jalr _ _ _ | .lui _ _ | .auipc _ _ | .addi _ _ _ | .add _ _ _ | .lb _ _ _ | .sb _ _ _ => none

/-- The record of an instruction has the control-transfer flag of R153's row, and its pc offset, if it has one, is
the immediate of its format. -/
theorem decodeWord_transfer {w : InstrWord} {offset : Word} {i : Instr} (h : (decodeWord w offset).toInstr = some i) :
    (decodeWord w offset).flags.ct = Machine.isTransfer i ∧
      ∀ imm, pcOffset i = some imm → imm = immJ w ∨ imm = immB w := by
  rcases op5_cases w with hop | hop | hop | hop | hop | hop | hop | hop | hop | hop
  · rw [decodeWord_load _ hop] at h ⊢
    cases toInstr_of_code h
    simp [Machine.isTransfer, pcOffset]
  · rw [decodeWord_opImm _ hop] at h ⊢
    cases toInstr_of_code h
    simp [Machine.isTransfer, pcOffset]
  · rw [decodeWord_auipc _ hop] at h ⊢
    cases h
    simp [Machine.isTransfer, pcOffset]
  · rw [decodeWord_store _ hop] at h ⊢
    cases toInstr_of_code h
    simp [Machine.isTransfer, pcOffset]
  · rw [decodeWord_op _ hop] at h ⊢
    cases toInstr_of_code h
    simp [Machine.isTransfer, pcOffset]
  · rw [decodeWord_lui _ hop] at h ⊢
    cases h
    simp [Machine.isTransfer, pcOffset]
  · rw [decodeWord_branch _ hop] at h ⊢
    cases toInstr_of_code h
    simp [Machine.isTransfer, pcOffset]
  · rw [decodeWord_jalr _ hop] at h ⊢
    cases toInstr_of_code h
    simp [Machine.isTransfer, pcOffset]
  · rw [decodeWord_jal _ hop] at h ⊢
    cases h
    simp [Machine.isTransfer, pcOffset]
  · rw [decodeWord_unmapped _ hop] at h
    cases h

/-- Bytes that are an instruction start a 4-byte one, and their record is that of their word. -/
theorem decodeBytes_of_ok {b0 b1 b2 b3 : Byte} {i : Instr} (h : decodeInstr b0 b1 b2 b3 = .ok i) (offset : Word) :
    decodeBytes b0 b1 b2 b3 offset = decodeWord (assemble b0 b1 b2 b3) offset := by
  unfold decodeInstr at h
  split_ifs at h with h4
  exact if_pos h4

/-- The word of bytes that are an instruction has that instruction's record. -/
theorem decodeWord_toInstr_of_ok {b0 b1 b2 b3 : Byte} {i : Instr} (h : decodeInstr b0 b1 b2 b3 = .ok i)
    (offset : Word) : (decodeWord (assemble b0 b1 b2 b3) offset).toInstr = some i := by
  rw [← decodeBytes_of_ok h]
  exact (decodeInstr_eq_ok offset).mp h

theorem toNat_even_iff_bit0 (v : Word) : v.toNat % 2 = 0 ↔ v.getLsbD 0 = false := by
  rw [BitVec.getLsbD, Nat.testBit_zero, decide_eq_false_iff_not]
  omega

/-- An extension of a field over a constant zero is even (R92, R95). -/
theorem sext_append_zero_even {n : Nat} (v : BitVec n) (hn : n + 1 ≤ 64) : (sext (v ++ 0#1)).toNat % 2 = 0 := by
  rw [toNat_even_iff_bit0, sext_getLsbD_of_lt _ hn (Nat.succ_pos n), BitVec.getLsbD_append]
  simp

theorem add_even {a b : Word} (ha : a.toNat % 2 = 0) (hb : b.toNat % 2 = 0) : (a + b).toNat % 2 = 0 := by
  rw [BitVec.toNat_add]
  omega

/-- Clearing bit 0 leaves an even word (R191). -/
theorem clear_bit0_even (v : Word) : (v &&& ~~~1#64).toNat % 2 = 0 := by
  rw [toNat_even_iff_bit0]
  simp

/-- R92, R95: a decoded pc offset is even. -/
theorem pcOffset_even {b0 b1 b2 b3 : Byte} {i : Instr} {imm : Word} (h : decodeInstr b0 b1 b2 b3 = .ok i)
    (himm : pcOffset i = some imm) : imm.toNat % 2 = 0 := by
  rcases (decodeWord_transfer (decodeWord_toInstr_of_ok h 0)).2 imm himm with rfl | rfl
  · exact sext_append_zero_even _ (by decide)
  · exact sext_append_zero_even _ (by decide)

end Sys2Proof

/-! ## The pc

R27's table, and that an even pc stays even (R28). -/

namespace Sys2Proof.Machine

/-- A failure leaves the state of `abort` (R177). -/
theorem hostStep_of_failed {s : State} {f : Fault} (h : (hostStep s).2 = .failed f) : (hostStep s).1 = s.abort := by
  unfold hostStep at h ⊢
  cases hs : step s with
  | next t => simp [hs] at h
  | fault g => rfl
  | refused x => simp [hs] at h

/-- Settles O34: the record's flag and size, the table, and the pc that the forcing of register 0 does not touch. -/
theorem pcFollowsTheTable : Obligations.PcFollowsTheTable := by
  refine ⟨fun b0 b1 b2 b3 offset i h => ?_, fun i s t h => (exec_pc_and_regs h).1, fun s f h => ?_⟩
  · rw [decodeBytes_of_ok h]
    exact ⟨(decodeWord_transfer (decodeWord_toInstr_of_ok h offset)).1, decodeWord_size _ _⟩
  · rw [hostStep_of_failed h]
    rfl

/-- R28: the new pc of an instruction whose pc offset is even is even. -/
theorem newPc_even {s : State} {i : Instr} (hs : s.pcEven) (hi : ∀ imm, pcOffset i = some imm → imm.toNat % 2 = 0) :
    (newPc s i).toNat % 2 = 0 := by
  have hnext : (s.pc + 4).toNat % 2 = 0 := add_even hs rfl
  cases i with
  | jal _ imm => exact add_even hs (hi imm rfl)
  | jalr rs1 _ imm => exact clear_bit0_even _
  | blt rs1 rs2 imm =>
    simp only [newPc]
    split_ifs
    · exact add_even hs (hi imm rfl)
    · exact hnext
  | lui | auipc | addi | add | lb | sb => exact hnext

/-- Settles O55: the new pc is the table's, and the offset of a decoded instruction is even. -/
theorem pcStaysEven : Obligations.PcStaysEven := by
  intro s t hs h
  obtain ⟨i, ⟨-, hfetched⟩, hexec⟩ := step_eq_next.mp h
  unfold State.pcEven
  rw [(exec_pc_and_regs hexec).1]
  exact newPc_even hs fun imm himm => pcOffset_even hfetched himm

end Sys2Proof.Machine

/-! ## What a step keeps

The canonical form and x0 = 0 (R23), the parameters over a run (R36, R64), independence of the stored x0 (R41), and the
one refusal (D11). -/

namespace Sys2Proof.Machine

/-- Settles O54: register 0 is forced, and the one thing a step can do to memory is a write inside the buffer. -/
theorem stepKeepsInvariant : Obligations.StepKeepsInvariant := by
  rintro s t ⟨hwf, -⟩ h
  obtain ⟨i, -, hexec⟩ := step_eq_next.mp h
  refine ⟨?_, exec_readReg_zero hexec⟩
  rcases (exec_effects hexec).2 with ⟨hmem, -⟩ | ⟨ea, b, -, hlt, hmem, -⟩ | ⟨b, hmem, -⟩
  · rwa [hmem]
  · rw [hmem]
    exact put_wf hwf hlt b
  · rwa [hmem]

/-- Settles O41: neither the fetch nor the meaning sees what register 0 held. -/
theorem storedRegisterZeroIsNeverRead : Obligations.StoredRegisterZeroIsNeverRead := by
  intro s
  have hadm : s.forceZero.fetchAdmitted = s.fetchAdmitted := rfl
  have hfetched : s.forceZero.fetchedInstr = s.fetchedInstr := rfl
  cases ha : s.fetchAdmitted
  · rw [step_of_not_admitted ha, step_of_not_admitted (hadm.trans ha), forceZero_pc]
  · rw [step_of_admitted ha, step_of_admitted (hadm.trans ha), hfetched]
    cases s.fetchedInstr.toOption <;> simp only [exec_forceZero]

/-- A refused step is a refused instruction. -/
theorem step_eq_refused {s : State} {r : Refusal} (h : step s = .refused r) :
    ∃ i, s.runs i ∧ exec i s = .refused r := by
  cases ha : s.fetchAdmitted
  · rw [step_of_not_admitted ha] at h
    cases h
  · cases hd : s.fetchedInstr with
    | ok i =>
      have hr : s.runs i := ⟨ha, hd⟩
      exact ⟨i, hr, (step_of_runs hr).symm.trans h⟩
    | rejected =>
      rw [step_of_admitted ha, hd] at h
      cases h

/-- Settles O45: the refusal is the instruction's, and only SB has one. -/
theorem noRefusalWithSinkAttached : Obligations.NoRefusalWithSinkAttached := by
  intro s r h
  obtain ⟨i, hruns, hexec⟩ := step_eq_refused h
  obtain ⟨hsink, hr, rs1, rs2, imm, rfl, hport⟩ := exec_eq_refused hexec
  exact ⟨hsink, hr, rs1, rs2, imm, hruns, hport⟩

/-- The parameters of the run stand alike in both states (R36, R37, R64). -/
def ParametersKept (s t : State) : Prop := t.mem.size = s.mem.size ∧ PortKept s t

theorem step_parametersKept {s t : State} (h : step s = .next t) : ParametersKept s t := by
  obtain ⟨i, -, hexec⟩ := step_eq_next.mp h
  obtain ⟨hport, ⟨hmem, -⟩ | ⟨ea, b, -, -, hmem, -⟩ | ⟨b, hmem, -⟩⟩ := exec_effects hexec
  · exact ⟨by rw [hmem], hport⟩
  · exact ⟨by rw [hmem, put_size], hport⟩
  · exact ⟨by rw [hmem], hport⟩

/-- What every completed step does, and what is reflexive and transitive, every run does. -/
theorem runsTo_induction {R : State → State → Prop} (refl : ∀ s, R s s) (trans : ∀ s u t, R s u → R u t → R s t)
    (hstep : ∀ s t, step s = .next t → R s t) {k : Nat} {s t : State} (h : runsTo k s t) : R s t := by
  induction k generalizing s with
  | zero =>
    rw [runsTo_zero] at h
    exact h ▸ refl s
  | succ k ih =>
    obtain ⟨u, hu, hrun⟩ := runsTo_succ.mp h
    exact trans s u t (hstep s u hu) (ih hrun)

/-- Settles O56: one step keeps the parameters, so a run does. -/
theorem parametersNeverChange : Obligations.ParametersNeverChange :=
  fun _ _ _ h => runsTo_induction (R := ParametersKept) (fun _ => ⟨rfl, rfl, rfl⟩)
    (fun _ _ _ ⟨hsize, hport, hsink⟩ ⟨hsize', hport', hsink'⟩ =>
      ⟨hsize'.trans hsize, hport'.trans hport, hsink'.trans hsink⟩)
    (fun _ _ => step_parametersKept) h

end Sys2Proof.Machine

/-! ## Launch

The launch and reset states (R40, R290). -/

namespace Sys2Proof.Machine

/-- R40: the registers at launch. -/
theorem launch_readReg (p : Params) (r : Reg) :
    (State.launch p).readReg r = if h : r.val = 0 then 0 else p.initRegs.get ⟨r.val - 1, by omega⟩ := by
  simp [State.launch, State.readReg, Vector.get_eq_getElem]

/-- Settles O51: every field is the parameter by construction; the registers are `launch_readReg`. -/
theorem launchHoldsTheParameters : Obligations.LaunchHoldsTheParameters := by
  intro p
  exact ⟨rfl, launch_readReg p 0, fun k h => launch_readReg p ⟨k + 1, by omega⟩, rfl, fun _ => rfl, rfl, rfl, rfl⟩

/-- Settles O53: the reset parameters are admissible, so reset is a case of launch. -/
theorem launchAndResetMeetInvariant : Obligations.LaunchAndResetMeetInvariant := by
  have hlaunch (p : Params) (hp : validParams p) : (State.launch p).Inv := ⟨hp, launch_readReg p 0⟩
  have hreset : validParams resetParams := ⟨List.Pairwise.nil, by simp [resetParams], by decide⟩
  exact ⟨hlaunch, hlaunch _ hreset, rfl⟩

end Sys2Proof.Machine

/-! ## The port's byte

No run writes the byte behind the output port (R57, R63, R65). -/

namespace Sys2Proof.Machine

/-- The port stands at the same address in both states, and the byte behind it is the same. -/
def PortByteKept (s t : State) : Prop :=
  t.outputPort = s.outputPort ∧ t.mem.byteAt s.outputPort.toNat = s.mem.byteAt s.outputPort.toNat

theorem PortByteKept.trans {s u t : State} (hsu : PortByteKept s u) (hut : PortByteKept u t) : PortByteKept s t := by
  obtain ⟨hport, hbyte⟩ := hsu
  obtain ⟨hport', hbyte'⟩ := hut
  rw [hport] at hport' hbyte'
  exact ⟨hport', hbyte'.trans hbyte⟩

/-- The only write to memory is off the port (R63), so a completed step keeps the port's byte. -/
theorem step_portByteKept {s t : State} (h : step s = .next t) : PortByteKept s t := by
  obtain ⟨i, -, hexec⟩ := step_eq_next.mp h
  obtain ⟨⟨hport, -⟩, ⟨hmem, -⟩ | ⟨ea, b, hne, -, hmem, -⟩ | ⟨b, hmem, -⟩⟩ := exec_effects hexec
  · exact ⟨hport, by rw [hmem]⟩
  · have hoff : s.outputPort.toNat ≠ ea.toNat := fun heq => hne (BitVec.eq_of_toNat_eq heq.symm)
    exact ⟨hport, by rw [hmem, byteAt_put_of_ne _ _ hoff]⟩
  · exact ⟨hport, by rw [hmem]⟩

/-- Settles O57: one step keeps the port and the byte behind it, so a run does. -/
theorem portByteNeverChanges : Obligations.PortByteNeverChanges :=
  fun _ _ _ h => (runsTo_induction (R := PortByteKept) (fun _ => ⟨rfl, rfl⟩) (fun _ _ _ => PortByteKept.trans)
    (fun _ _ => step_portByteKept) h).2

end Sys2Proof.Machine

/-! ## Failed steps

Which outcome of a step is which failure (R60, R61, R251 to R253), and the state a failure leaves (R177). -/

namespace Sys2Proof.Machine

/-- R60: the admission test as a condition on the pc, the capacity and the first byte. -/
theorem fetchAdmitted_iff (s : State) : s.fetchAdmitted = true ↔
    0 ≤ s.pc.toInt ∧ s.pc.toNat < s.mem.size ∧
      ((s.mem.byteAt s.pc.toNat).extractLsb' 0 2 = 0b11#2 → s.pc.toNat + 4 ≤ s.mem.size) := by
  simp only [State.fetchAdmitted, isFourByte, Bool.and_eq_true, Bool.or_eq_true, Bool.not_eq_true', beq_eq_false_iff_ne,
    decide_eq_true_eq, and_assoc, imp_iff_not_or, ne_eq]

/-- R61: the one fault of an instruction is an access outside memory, by LB or by SB off the port. -/
theorem exec_eq_fault {i : Instr} {s : State} {f : Fault} (h : exec i s = .fault f) :
    ∃ ea : Word, f = .accessFault ea ∧ s.mem.size ≤ ea.toNat ∧
      ((∃ rd rs1 imm, i = .lb rd rs1 imm ∧ ea = s.x rs1 + imm) ∨
        ∃ rs1 rs2 imm, i = .sb rs1 rs2 imm ∧ ea = s.x rs1 + imm ∧ ea ≠ s.outputPort) := by
  cases i with
  | jal | jalr | lui | auipc | addi | add | blt =>
    simp only [exec_jal, exec_jalr, exec_lui, exec_auipc, exec_addi, exec_add, exec_blt] at h
    cases h
  | lb rd rs1 imm =>
    rcases Nat.lt_or_ge (s.x rs1 + imm).toNat s.mem.size with hlt | hge
    · rw [exec_lb_of_lt hlt] at h; cases h
    · rw [exec_lb_of_ge hge] at h; cases h
      exact ⟨_, rfl, hge, .inl ⟨rd, rs1, imm, rfl, rfl⟩⟩
  | sb rs1 rs2 imm =>
    by_cases hport : s.x rs1 + imm = s.outputPort
    · cases hsink : s.sinkAttached
      · rw [exec_sb_no_sink hport hsink] at h; cases h
      · rw [exec_sb_at_port hport hsink] at h; cases h
    · rcases Nat.lt_or_ge (s.x rs1 + imm).toNat s.mem.size with hlt | hge
      · rw [exec_sb_of_lt hport hlt] at h; cases h
      · rw [exec_sb_of_ge hport hge] at h; cases h
        exact ⟨_, rfl, hge, .inr ⟨rs1, rs2, imm, rfl, rfl, hport⟩⟩

/-- Everything that makes a step fail: the fetch is not admitted, the bytes are no instruction, or the instruction
faults. -/
theorem step_eq_fault {s : State} {f : Fault} : step s = .fault f ↔
    (s.fetchAdmitted = false ∧ f = .fetchFault s.pc) ∨
    (s.fetchAdmitted = true ∧ (∃ why, s.fetchedInstr = .rejected why) ∧ f = .illegalInstruction) ∨
    ∃ i, s.runs i ∧ exec i s = .fault f := by
  constructor
  · intro h
    cases ha : s.fetchAdmitted
    · rw [step_of_not_admitted ha] at h
      cases h
      exact .inl ⟨rfl, rfl⟩
    · cases hd : s.fetchedInstr with
      | ok i =>
        have hr : s.runs i := ⟨ha, hd⟩
        exact .inr (.inr ⟨i, hr, (step_of_runs hr).symm.trans h⟩)
      | rejected why =>
        rw [step_of_admitted ha, hd] at h
        cases h
        exact .inr (.inl ⟨rfl, ⟨why, rfl⟩, rfl⟩)
  · rintro (⟨ha, rfl⟩ | ⟨ha, ⟨why, hd⟩, rfl⟩ | ⟨i, hr, hexec⟩)
    · exact step_of_not_admitted ha
    · rw [step_of_admitted ha, hd]
      rfl
    · rw [step_of_runs hr, hexec]

/-- R252: `FetchFault` is the outcome of a fetch that is not admitted, and of nothing else. -/
theorem step_eq_fetchFault {s : State} {p : Word} :
    step s = .fault (.fetchFault p) ↔ p = s.pc ∧ ¬s.fetchAdmitted = true := by
  rw [step_eq_fault, Bool.not_eq_true]
  constructor
  · rintro (⟨ha, hp⟩ | ⟨-, -, hp⟩ | ⟨i, -, hexec⟩)
    · exact ⟨Fault.fetchFault.inj hp, ha⟩
    · cases hp
    · obtain ⟨ea, hp, -⟩ := exec_eq_fault hexec
      cases hp
  · rintro ⟨rfl, ha⟩
    exact .inl ⟨ha, rfl⟩

/-- R177: forcing register 0 is all that a failure does. -/
theorem abort_unchangedButZero (s : State) : UnchangedButZero s s.abort :=
  ⟨rfl, readReg_forceZero s, rfl, ⟨rfl, rfl⟩, rfl⟩

/-- A failed step leaves the state of a failure in the host's hand. -/
theorem hostStep_of_fault {s : State} {f : Fault} (h : step s = .fault f) : hostStep s = (s.abort, .failed f) := by
  rw [hostStep, h]

/-- Settles O18: the outcome is that of the admission test, and the state is the one a failure leaves. -/
theorem fetchFaultIffNotAdmitted : Obligations.FetchFaultIffNotAdmitted := by
  intro s p
  refine ⟨?_, fun h => ?_⟩
  · rw [step_eq_fetchFault, fetchAdmitted_iff]
  · rw [hostStep_of_fault h]
    exact abort_unchangedButZero s

end Sys2Proof.Machine

/-! ## Fetched words

The word of a 4-byte fetch is little-endian (R53, R82). -/

namespace Sys2Proof.Machine

/-- Bytes that start a 4-byte instruction are decoded as the word they assemble to (R136, R137). -/
theorem decodeBytes_of_four {b0 : Byte} (h : b0.extractLsb' 0 2 = 0b11#2) (b1 b2 b3 : Byte) (offset : Word) :
    decodeBytes b0 b1 b2 b3 offset = decodeWord (assemble b0 b1 b2 b3) offset :=
  if_pos (beq_iff_eq.mpr h)

/-- Settles O19: an admitted fetch decodes the assembled word, whose bytes are those at the pc. -/
theorem fetchIsLittleEndian : Obligations.FetchIsLittleEndian := by
  refine ⟨rfl, fun s hadmitted hfour => ⟨_, ?_, assemble_bytes _ _ _ _⟩⟩
  rw [fetch_of_admitted hadmitted, decodeAt, decodeBytes_of_four hfour]

end Sys2Proof.Machine

/-! ## Stores

What an instruction does to memory and to the output trace (R57, R62, R63), and that the next fetch and the next load
see the byte stored (R69, R72). -/

namespace Sys2Proof.Machine

/-- The trace grows by the instruction's own output, and the one change to memory is the byte of an SB in range and
off the port. -/
theorem exec_trace_and_mem {i : Instr} {s t : State} (h : exec i s = .next t) :
    t.trace = s.trace ++ outputOf s i ∧
    (t.mem = s.mem ∨ ∃ rs1 rs2 imm, i = .sb rs1 rs2 imm ∧ s.x rs1 + imm ≠ s.outputPort ∧
      (s.x rs1 + imm).toNat < s.mem.size ∧
      t.mem = s.mem.put (s.x rs1 + imm).toNat ((s.x rs2).extractLsb' 0 8)) := by
  cases i with
  | jal | jalr | lui | auipc | addi | add | blt =>
    simp only [exec_jal, exec_jalr, exec_lui, exec_auipc, exec_addi, exec_add, exec_blt] at h
    cases h
    simp [outputOf]
  | lb => rw [exec_lb_of_lt (exec_lb_next h)] at h; cases h; simp [outputOf]
  | sb rs1 rs2 imm =>
    rcases exec_sb_next h with ⟨hport, hsink⟩ | ⟨hport, hlt⟩
    · rw [exec_sb_at_port hport hsink] at h; cases h
      simp [outputOf, hport]
    · rw [exec_sb_of_lt hport hlt] at h; cases h
      exact ⟨by simp [outputOf, hport], .inr ⟨rs1, rs2, imm, rfl, hport, hlt, rfl⟩⟩

/-- Settles O38: a changed byte is the one SB put. -/
theorem onlyStoresChangeMemory : Obligations.OnlyStoresChangeMemory := by
  intro i s t h
  rcases (exec_trace_and_mem h).2 with hmem | ⟨rs1, rs2, imm, rfl, hport, hlt, hmem⟩
  · rw [hmem]
    exact ⟨rfl, fun _ hchanged => absurd rfl hchanged⟩
  · rw [hmem]
    refine ⟨put_size _ _ _, fun a hchanged => ?_⟩
    have ha : a = (s.x rs1 + imm).toNat := by
      by_contra hne
      exact hchanged (byteAt_put_of_ne _ _ hne)
    exact ⟨rs1, rs2, imm, rfl, ha, hport, ha ▸ hlt⟩

/-- Settles O39: the parameters are kept, and the trace grows by the instruction's own output. -/
theorem outputExactlyOnPortStores : Obligations.OutputExactlyOnPortStores :=
  fun _ _ _ h => ⟨(exec_effects h).1, (exec_trace_and_mem h).1⟩

/-- What a canonical memory reads after one byte is put. -/
theorem byteAt_put {m : Memory} (hm : m.wf) (a b : Nat) (v : Byte) :
    (m.put a v).byteAt b = if b = a then v else m.byteAt b := by
  split_ifs with h
  · rw [h, byteAt_put_self hm]
  · exact byteAt_put_of_ne m v h

/-- Settles O49: the fetch after SB reads the pc and the memory that SB left. -/
theorem storeIsSeenByNextFetch : Obligations.StoreIsSeenByNextFetch := by
  intro rs1 rs2 imm s hwf hport hlt
  refine ⟨_, exec_sb_of_lt hport hlt, fun hadmitted => ?_⟩
  rw [fetch_of_admitted hadmitted]
  simp [decodeAt, byteAt_put hwf]

/-- Completing a step changes nothing an instruction reads from a register. -/
@[simp] theorem complete_x (ct : Bool) (s : State) (r : Reg) : (s.complete ct).x r = s.x r := by
  rw [x_eq_readReg _ _ (complete_readReg ct s 0), complete_readReg]

/-- SB off the port in range puts its byte and changes nothing an instruction reads from a register. -/
theorem exec_sb_puts {rs1 rs2 : Reg} {imm : Word} {s : State} (hport : s.x rs1 + imm ≠ s.outputPort)
    (hlt : (s.x rs1 + imm).toNat < s.mem.size) : ∃ t, exec (.sb rs1 rs2 imm) s = .next t ∧
      t.mem = s.mem.put (s.x rs1 + imm).toNat ((s.x rs2).extractLsb' 0 8) ∧ ∀ r, t.x r = s.x r :=
  ⟨_, exec_sb_of_lt hport hlt, by simp, fun r => by simp⟩

/-- A step that writes one register and completes leaves the value there, or 0 in x0 (R23). -/
theorem regWritten_complete (ct : Bool) (s : State) (rd : Reg) (v : Word) :
    RegWritten rd v ((s.writeReg rd v).complete ct) := by
  simp [RegWritten, x_writeReg]

/-- Settles O50: SB leaves the registers as they were read, so LB reads the address where SB put its byte. -/
theorem loadReturnsStoredByte : Obligations.LoadReturnsStoredByte := by
  intro rd rs1 rs2 base imm off s hwf hport hlt haddr
  obtain ⟨t, hsb, hmem, hx⟩ := exec_sb_puts (rs2 := rs2) hport hlt
  have hea : t.x base + off = s.x rs1 + imm := by rw [hx, haddr]
  have hlb := exec_lb_of_lt (rd := rd) (rs1 := base) (imm := off) (s := t) (by rwa [hea, hmem])
  rw [hea, hmem, byteAt_put_self hwf] at hlb
  exact ⟨t, _, hsb, hlb, regWritten_complete _ _ _ _⟩

end Sys2Proof.Machine

/-! ## Immediates of a word

Each immediate as the signed number of the field bits it is made of, or an even or 4096-fold multiple of it (R90 to
R96 of spec/30_encoding.md). -/

namespace Sys2Proof

section
variable (w : InstrWord)

/-- The twelve bits of a branch's offset above its constant zero (R92). -/
def branchField : BitVec 12 := w.extractLsb' 31 1 ++ w.extractLsb' 7 1 ++ w.extractLsb' 25 6 ++ w.extractLsb' 8 4

/-- The twenty bits of a jump's offset above its constant zero, from `f = w[31:12]`, which holds them in another order
(R95). -/
def jumpField (f : BitVec 20) : BitVec 20 :=
  f.extractLsb' 19 1 ++ f.extractLsb' 0 8 ++ f.extractLsb' 8 1 ++ f.extractLsb' 9 10

theorem immI_toInt : (immI w).toInt = (w.extractLsb' 20 12).toInt := sext_toInt _ (by decide)

theorem immS_toInt : (immS w).toInt = (w.extractLsb' 25 7 ++ w.extractLsb' 7 5).toInt := sext_toInt _ (by decide)

theorem immB_toInt : (immB w).toInt = 2 * (branchField w).toInt :=
  (sext_toInt _ (by decide)).trans (BitVec.toInt_append_zero (x := branchField w) (m := 1))

theorem immU_toInt : (immU w).toInt = 4096 * (w.extractLsb' 12 20).toInt :=
  (sext_toInt _ (by decide)).trans (BitVec.toInt_append_zero (m := 12))

theorem immU20_toInt : (immU20 w).toInt = (w.extractLsb' 12 20).toInt := sext_toInt _ (by decide)

theorem jumpField_extract : jumpField (w.extractLsb' 12 20) =
    w.extractLsb' 31 1 ++ w.extractLsb' 12 8 ++ w.extractLsb' 20 1 ++ w.extractLsb' 21 10 := by
  apply BitVec.eq_of_getLsbD_eq
  intro i hi
  simp only [jumpField, BitVec.getLsbD_append, BitVec.getLsbD_extractLsb']
  interval_cases i <;> simp

theorem immJ_toInt : (immJ w).toInt = 2 * (jumpField (w.extractLsb' 12 20)).toInt := by
  rw [jumpField_extract]
  exact (sext_toInt _ (by decide)).trans (BitVec.toInt_append_zero (n := 20) (m := 1))

end

theorem toInt_bounds_12 (v : BitVec 12) : -2048 ≤ v.toInt ∧ v.toInt ≤ 2047 :=
  ⟨v.le_toInt, Int.le_of_lt_add_one v.toInt_lt⟩

theorem toInt_bounds_20 (v : BitVec 20) : -524288 ≤ v.toInt ∧ v.toInt ≤ 524287 :=
  ⟨v.le_toInt, Int.le_of_lt_add_one v.toInt_lt⟩

/-- Settles O2: each immediate is a multiple of the signed number of its 12-bit or 20-bit field. -/
theorem immediateRanges : Obligations.ImmediateRanges := by
  intro w
  have hbranch := toInt_bounds_12 (branchField w)
  have hupper := toInt_bounds_20 (w.extractLsb' 12 20)
  have hjump := toInt_bounds_20 (jumpField (w.extractLsb' 12 20))
  rw [immI_toInt, immS_toInt, immB_toInt, immU_toInt, immU20_toInt, immJ_toInt, immU_sshiftRight]
  exact ⟨toInt_bounds_12 _, toInt_bounds_12 _, by omega, by omega, ⟨hupper.1, hupper.2, rfl⟩, by omega⟩

/-- A branch's offset is made of the bits that R96's mask keeps. -/
theorem branchField_mask (w : InstrWord) : branchField (w &&& 0xFE000F80#32) = branchField w := by
  simp only [branchField, BitVec.extractLsb'_and]
  have hones {n : Nat} (v : BitVec n) : v &&& BitVec.allOnes n = v := BitVec.and_allOnes
  exact congrArg₂ _ (congrArg₂ _ (congrArg₂ _ (hones _) (hones _)) (hones _)) (hones _)

/-- A field whose top bit is `w[31]` is negative exactly when that bit is set. -/
theorem toInt_neg_iff_of_msb {n : Nat} {v : BitVec n} {w : InstrWord} (h : v.msb = w.msb) :
    v.toInt < 0 ↔ w.getLsbD 31 = true := by
  rw [← BitVec.msb_eq_getLsbD_last w, ← h, BitVec.msb_eq_toInt, decide_eq_true_iff]

/-- The top part of a value has the value's top bit. -/
theorem msb_extract_top {n : Nat} (v : BitVec n) {start len : Nat} (hlen : 0 < len) (htop : start + len = n) :
    (v.extractLsb' start len).msb = v.msb := by
  simp [hlen, htop, BitVec.msb]

/-- The six immediates are negative exactly when `w[31]` is set: it is the top bit of their fields (R96). -/
theorem immediates_neg_iff (w : InstrWord) :
    ((immI w).toInt < 0 ↔ w.getLsbD 31 = true) ∧ ((immS w).toInt < 0 ↔ w.getLsbD 31 = true) ∧
    ((immB w).toInt < 0 ↔ w.getLsbD 31 = true) ∧ ((immU w).toInt < 0 ↔ w.getLsbD 31 = true) ∧
    ((immU20 w).toInt < 0 ↔ w.getLsbD 31 = true) ∧ ((immJ w).toInt < 0 ↔ w.getLsbD 31 = true) := by
  have htwo (x : Int) : 2 * x < 0 ↔ x < 0 := by omega
  have hpage (x : Int) : 4096 * x < 0 ↔ x < 0 := by omega
  have hupper : (w.extractLsb' 12 20).msb = w.msb := msb_extract_top w (by decide) rfl
  rw [immI_toInt, immS_toInt, immB_toInt, immU_toInt, immU20_toInt, immJ_toInt, htwo, hpage, htwo]
  refine ⟨toInt_neg_iff_of_msb (msb_extract_top w (by decide) rfl), toInt_neg_iff_of_msb ?_, toInt_neg_iff_of_msb ?_,
    toInt_neg_iff_of_msb hupper, toInt_neg_iff_of_msb hupper, toInt_neg_iff_of_msb ?_⟩
  · exact BitVec.msb_append.trans (msb_extract_top w (by decide) rfl)
  · calc (branchField w).msb = (w.extractLsb' 31 1).msb :=
        BitVec.msb_append.trans (BitVec.msb_append.trans BitVec.msb_append)
      _ = w.msb := msb_extract_top w (by decide) rfl
  · calc (jumpField (w.extractLsb' 12 20)).msb = ((w.extractLsb' 12 20).extractLsb' 19 1).msb :=
        BitVec.msb_append.trans (BitVec.msb_append.trans BitVec.msb_append)
      _ = (w.extractLsb' 12 20).msb := msb_extract_top _ (by decide) rfl
      _ = w.msb := hupper

/-- Settles O3: each pattern fixes the field its immediate is made of. -/
theorem signExtensionBoundaries : Obligations.SignExtensionBoundaries := by
  intro w
  have hB {c : InstrWord} (h : w &&& 0xFE000F80#32 = c) : (immB w).toInt = 2 * (branchField c).toInt := by
    rw [immB_toInt, ← branchField_mask, h]
  have hU {f : BitVec 20} (h : w.extractLsb' 12 20 = f) :
      (immU w).toInt = 4096 * f.toInt ∧ (immU20 w).toInt = f.toInt := by
    rw [immU_toInt, immU20_toInt, h]
    exact ⟨rfl, rfl⟩
  have hJ {f : BitVec 20} (h : w.extractLsb' 12 20 = f) : (immJ w).toInt = 2 * (jumpField f).toInt := by
    rw [immJ_toInt, h]
  refine ⟨?_, ?_, ⟨hB, hB, hB⟩, ⟨hU, hU, hU⟩, ⟨hJ, hJ, hJ⟩, immediates_neg_iff w⟩
  · rw [immI_toInt]
    exact ⟨congrArg _, congrArg _, congrArg _⟩
  · rw [immS_toInt]
    exact ⟨congrArg _, congrArg _, congrArg _⟩

end Sys2Proof

/-! ## The opcode map

A row of the opcode map admits only words the decoder gives its id (R100 of spec/30_encoding.md). -/

namespace Sys2Proof

/-- A word that a row admits has that row's id (R97 to R99). -/
theorem decodeWord_id_of_admits {w : InstrWord} {row : OpcodeRow} (hrow : row ∈ opcodeRows) (h : row.admits w = true)
    (offset : Word) : (decodeWord w offset).id = row.id := by
  have hmask : w &&& row.mask = row.pattern := beq_iff_eq.mp h
  simp only [opcodeRows, List.mem_cons, List.not_mem_nil, or_false] at hrow
  rcases hrow with rfl | rfl | rfl | rfl | rfl | rfl | rfl | rfl | rfl
  · obtain ⟨hop, -⟩ := (and_7F_eq_iff w 0b11011#5 _ (by decide)).mp hmask
    rw [decodeWord_jal _ hop]
  · obtain ⟨hop, h3, -⟩ := (and_707F_eq_iff w 0b000#3 0b11001#5 _ (by decide)).mp hmask
    rw [decodeWord_jalr _ hop, if_pos h3]
  · obtain ⟨hop, -⟩ := (and_7F_eq_iff w 0b01101#5 _ (by decide)).mp hmask
    rw [decodeWord_lui _ hop]
  · obtain ⟨hop, -⟩ := (and_7F_eq_iff w 0b00101#5 _ (by decide)).mp hmask
    rw [decodeWord_auipc _ hop]
  · obtain ⟨hop, h3, -⟩ := (and_707F_eq_iff w 0b000#3 0b00100#5 _ (by decide)).mp hmask
    rw [decodeWord_opImm _ hop, if_pos h3]
  · obtain ⟨hop, h3, h7, -⟩ := (and_FE00707F_eq_iff w 0b0000000#7 0b000#3 0b01100#5 _ (by decide)).mp hmask
    rw [decodeWord_op _ hop, if_pos ⟨h3, h7⟩]
  · obtain ⟨hop, h3, -⟩ := (and_707F_eq_iff w 0b100#3 0b11000#5 _ (by decide)).mp hmask
    rw [decodeWord_branch _ hop, if_pos h3]
  · obtain ⟨hop, h3, -⟩ := (and_707F_eq_iff w 0b000#3 0b00000#5 _ (by decide)).mp hmask
    rw [decodeWord_load _ hop, if_pos h3]
  · obtain ⟨hop, h3, -⟩ := (and_707F_eq_iff w 0b000#3 0b01000#5 _ (by decide)).mp hmask
    rw [decodeWord_store _ hop, if_pos h3]

/-- No two rows of the opcode map have the same id. -/
theorem opcodeRows_eq_of_id : ∀ p ∈ opcodeRows, ∀ q ∈ opcodeRows, p.id = q.id → p = q := by decide

/-- Settles O8: two rows that admit one word both have the decoder's id for it, so they are the same row. -/
theorem opcodeRowsAreDisjoint : Obligations.OpcodeRowsAreDisjoint := by
  intro w p hp hadmits
  refine ⟨decodeWord_id_of_admits hp hadmits, fun q hq hq_admits => opcodeRows_eq_of_id p hp q hq ?_⟩
  rw [← decodeWord_id_of_admits hp hadmits 0, decodeWord_id_of_admits hq hq_admits]

end Sys2Proof

/-! ## What each word stands for

The instruction of a word opcode by opcode, and the rejections by the name of their rule (R110 to R115 of
spec/30_encoding.md). -/

namespace Sys2Proof

section
variable {w : InstrWord}

/-- The rule a word falls under when it is no instruction, from its opcode (R110 to R113). -/
theorem rejectReason_of_op {op : BitVec 5} (h : op5Of w = op) : rejectReason w =
    if op ∉ mappedOpcodes then .noTableEntry else if op = 0b11001#5 then .jalrFunctionCode
    else if op = 0b01100#5 ∧ funct3Of w = 0b000#3 then .addFunct7 else .functionCode := by
  simp only [rejectReason, h, Option.isNone_iff_eq_none, lookup_isNone_iff]

theorem decodeInstrWord_load (h : op5Of w = 0b00000#5) : decodeInstrWord w =
    if funct3Of w = 0b000#3 then .ok (.lb (fieldReg (rdOf w)) (fieldReg (rs1Of w)) (immI w))
    else .rejected .functionCode := by
  rw [decodeInstrWord, decodeWord_load _ h, rejectReason_of_op h]
  split_ifs <;> simp_all [Record.toInstr, mappedOpcodes]

theorem decodeInstrWord_opImm (h : op5Of w = 0b00100#5) : decodeInstrWord w =
    if funct3Of w = 0b000#3 then .ok (.addi (fieldReg (rdOf w)) (fieldReg (rs1Of w)) (immI w))
    else .rejected .functionCode := by
  rw [decodeInstrWord, decodeWord_opImm _ h, rejectReason_of_op h]
  split_ifs <;> simp_all [Record.toInstr, mappedOpcodes]

theorem decodeInstrWord_auipc (h : op5Of w = 0b00101#5) :
    decodeInstrWord w = .ok (.auipc (fieldReg (rdOf w)) (immU w)) := by
  simp [decodeInstrWord, decodeWord_auipc _ h, Record.toInstr]

theorem decodeInstrWord_store (h : op5Of w = 0b01000#5) : decodeInstrWord w =
    if funct3Of w = 0b000#3 then .ok (.sb (fieldReg (rs1Of w)) (fieldReg (rs2Of w)) (immS w))
    else .rejected .functionCode := by
  rw [decodeInstrWord, decodeWord_store _ h, rejectReason_of_op h]
  split_ifs <;> simp_all [Record.toInstr, mappedOpcodes]

theorem decodeInstrWord_op (h : op5Of w = 0b01100#5) : decodeInstrWord w =
    if funct3Of w = 0b000#3 ∧ funct7Of w = 0b0000000#7 then
      .ok (.add (fieldReg (rdOf w)) (fieldReg (rs1Of w)) (fieldReg (rs2Of w)))
    else .rejected (if funct3Of w = 0b000#3 then .addFunct7 else .functionCode) := by
  rw [decodeInstrWord, decodeWord_op _ h, rejectReason_of_op h]
  split_ifs <;> simp_all [Record.toInstr, mappedOpcodes]

theorem decodeInstrWord_lui (h : op5Of w = 0b01101#5) :
    decodeInstrWord w = .ok (.lui (fieldReg (rdOf w)) (immU20 w)) := by
  simp [decodeInstrWord, decodeWord_lui _ h, Record.toInstr]

theorem decodeInstrWord_branch (h : op5Of w = 0b11000#5) : decodeInstrWord w =
    if funct3Of w = 0b100#3 then .ok (.blt (fieldReg (rs1Of w)) (fieldReg (rs2Of w)) (immB w))
    else .rejected .functionCode := by
  rw [decodeInstrWord, decodeWord_branch _ h, rejectReason_of_op h]
  split_ifs <;> simp_all [Record.toInstr, mappedOpcodes]

theorem decodeInstrWord_jalr (h : op5Of w = 0b11001#5) : decodeInstrWord w =
    if funct3Of w = 0b000#3 then .ok (.jalr (fieldReg (rdOf w)) (fieldReg (rs1Of w)) (immI w))
    else .rejected .jalrFunctionCode := by
  rw [decodeInstrWord, decodeWord_jalr _ h, rejectReason_of_op h]
  split_ifs <;> simp_all [Record.toInstr, mappedOpcodes]

theorem decodeInstrWord_jal (h : op5Of w = 0b11011#5) :
    decodeInstrWord w = .ok (.jal (fieldReg (rdOf w)) (immJ w)) := by
  simp [decodeInstrWord, decodeWord_jal _ h, Record.toInstr]

theorem decodeInstrWord_unmapped (h : op5Of w ∉ mappedOpcodes) : decodeInstrWord w = .rejected .noTableEntry := by
  rw [decodeInstrWord, decodeWord_unmapped _ h, rejectReason_of_op rfl, if_pos h]
  rfl

end

/-- The condition under which R110 to R113 reject a 4-byte word, by the name of the rule; R115 rejects no such
word. -/
def Reject.condition (w : InstrWord) : Reject → Prop
  | .compressed => False
  | .noTableEntry => op5Of w ∉ mappedOpcodes
  | .functionCode =>
    (op5Of w ∈ [0#5, 4#5, 8#5, 12#5] ∧ funct3Of w ≠ 0#3) ∨ (op5Of w = 24#5 ∧ funct3Of w ≠ 4#3)
  | .jalrFunctionCode => op5Of w = 25#5 ∧ funct3Of w ≠ 0#3
  | .addFunct7 => op5Of w = 12#5 ∧ funct3Of w = 0#3 ∧ funct7Of w ≠ 0#7

/-- An answer that a condition decides is a rejection exactly when the condition fails. -/
theorem accept_eq_rejected_iff {c : Prop} [Decidable c] {i : Instr} {r why : Reject} :
    (if c then Decoded.ok i else .rejected r) = .rejected why ↔ ¬c ∧ r = why := by
  split_ifs with hc <;> simp [hc]

/-- A word is rejected by the one rule whose condition it meets. -/
theorem decodeInstrWord_eq_rejected_iff (w : InstrWord) (why : Reject) :
    decodeInstrWord w = .rejected why ↔ why.condition w := by
  rcases op5_cases w with h | h | h | h | h | h | h | h | h | h
  · rw [decodeInstrWord_load h, accept_eq_rejected_iff]
    cases why <;> simp [Reject.condition, h, mappedOpcodes]
  · rw [decodeInstrWord_opImm h, accept_eq_rejected_iff]
    cases why <;> simp [Reject.condition, h, mappedOpcodes]
  · rw [decodeInstrWord_auipc h]
    cases why <;> simp [Reject.condition, h, mappedOpcodes]
  · rw [decodeInstrWord_store h, accept_eq_rejected_iff]
    cases why <;> simp [Reject.condition, h, mappedOpcodes]
  · rw [decodeInstrWord_op h, accept_eq_rejected_iff]
    by_cases h3 : funct3Of w = 0b000#3
    · cases why <;> simp [Reject.condition, h, h3, mappedOpcodes]
    · cases why <;> simp [Reject.condition, h, h3, mappedOpcodes]
  · rw [decodeInstrWord_lui h]
    cases why <;> simp [Reject.condition, h, mappedOpcodes]
  · rw [decodeInstrWord_branch h, accept_eq_rejected_iff]
    cases why <;> simp [Reject.condition, h, mappedOpcodes]
  · rw [decodeInstrWord_jalr h, accept_eq_rejected_iff]
    cases why <;> simp [Reject.condition, h, mappedOpcodes]
  · rw [decodeInstrWord_jal h]
    cases why <;> simp [Reject.condition, h, mappedOpcodes]
  · rw [decodeInstrWord_unmapped h]
    cases why <;> simp_all [Reject.condition, mappedOpcodes]

/-- Bytes that start a 4-byte instruction stand for what their word stands for. -/
theorem decodeInstr_of_four {b0 : Byte} (h : b0.extractLsb' 0 2 = 0b11#2) (b1 b2 b3 : Byte) :
    decodeInstr b0 b1 b2 b3 = decodeInstrWord (assemble b0 b1 b2 b3) :=
  if_pos (beq_iff_eq.mpr h)

/-- R115: a first byte that starts no 4-byte instruction is the compressed rejection. -/
theorem decodeInstr_of_not_four {b0 : Byte} (h : b0.extractLsb' 0 2 ≠ 0b11#2) (b1 b2 b3 : Byte) :
    decodeInstr b0 b1 b2 b3 = .rejected .compressed :=
  if_neg fun h4 => h (beq_iff_eq.mp h4)

/-- Settles O14: the length bits decide between R115 and the rules on the word, each the condition of its name. -/
theorem rejectionsByRule : Obligations.RejectionsByRule := by
  intro b0 b1 b2 b3 w
  refine ⟨⟨fun hrej hfour => ?_, fun h => decodeInstr_of_not_four h b1 b2 b3⟩, fun hfour => ?_⟩
  · rw [decodeInstr_of_four hfour] at hrej
    exact (decodeInstrWord_eq_rejected_iff w .compressed).mp hrej
  · rw [decodeInstr_of_four hfour]
    exact ⟨decodeInstrWord_eq_rejected_iff w .noTableEntry, decodeInstrWord_eq_rejected_iff w .functionCode,
      decodeInstrWord_eq_rejected_iff w .jalrFunctionCode, decodeInstrWord_eq_rejected_iff w .addFunct7⟩

end Sys2Proof

/-! ## The Formatter

The template of a decoded record is that of its instruction's format class (R120, R123 of spec/30_encoding.md). -/

namespace Sys2Proof.Machine

/-- The rendering of an instruction by the template of its format class (R120). -/
def instrRendering : Instr → Rendering
  | .jal rd imm => .oneRegisterImmediate .jal rd imm
  | .jalr rd rs1 imm => .twoRegistersImmediate .jalr rd rs1 imm
  | .lui rd imm => .oneRegisterImmediate .lui rd imm
  | .auipc rd imm => .oneRegisterImmediate .auipc rd imm
  | .addi rd rs1 imm => .twoRegistersImmediate .addi rd rs1 imm
  | .add rd rs1 rs2 => .threeRegisters .add rd rs1 rs2
  | .blt rs1 rs2 imm => .twoRegistersImmediate .blt rs1 rs2 imm
  | .lb rd rs1 imm => .twoRegistersImmediate .lb rd rs1 imm
  | .sb rs1 rs2 imm => .twoRegistersImmediate .sb rs1 rs2 imm

/-- R123: a record without a handler renders as the sentinel, decoded or not. -/
theorem format_of_no_handler {r : Record} (h : r.toInstr = none) : format r = .sentinel := by
  have hid : r.id = .unknown ∨ r.id = .invalid := by
    cases hid : r.id <;> simp [Record.toInstr, hid] at h ⊢
  exact if_pos hid

/-- A record whose id a function code decides is an instruction only when the code is accepted (R140). -/
theorem code_accepted_of_toInstr {c : Prop} [Decidable c] {k : InstrId} {offset s0 s1 s2 : Word} {size n : Nat}
    {f : Flags} {i : Instr}
    (h : (Record.mk (if c then k else .unknown) offset size f n s0 s1 s2).toInstr = some i) : c := by
  split_ifs at h with hc
  · exact hc
  · cases h

/-- R120: the record of an instruction has the format flag of its template's class. -/
theorem format_decodeWord {w : InstrWord} {offset : Word} {i : Instr} (h : (decodeWord w offset).toInstr = some i) :
    format (decodeWord w offset) = instrRendering i := by
  rcases op5_cases w with hop | hop | hop | hop | hop | hop | hop | hop | hop | hop
  · rw [decodeWord_load _ hop] at h ⊢
    rw [if_pos (code_accepted_of_toInstr h)]
    cases toInstr_of_code h
    rfl
  · rw [decodeWord_opImm _ hop] at h ⊢
    rw [if_pos (code_accepted_of_toInstr h)]
    cases toInstr_of_code h
    rfl
  · rw [decodeWord_auipc _ hop] at h ⊢
    cases h
    rfl
  · rw [decodeWord_store _ hop] at h ⊢
    rw [if_pos (code_accepted_of_toInstr h)]
    cases toInstr_of_code h
    rfl
  · rw [decodeWord_op _ hop] at h ⊢
    rw [if_pos (code_accepted_of_toInstr h)]
    cases toInstr_of_code h
    rfl
  · rw [decodeWord_lui _ hop] at h ⊢
    cases h
    rfl
  · rw [decodeWord_branch _ hop] at h ⊢
    rw [if_pos (code_accepted_of_toInstr h)]
    cases toInstr_of_code h
    rfl
  · rw [decodeWord_jalr _ hop] at h ⊢
    rw [if_pos (code_accepted_of_toInstr h)]
    cases toInstr_of_code h
    rfl
  · rw [decodeWord_jal _ hop] at h ⊢
    cases h
    rfl
  · rw [decodeWord_unmapped _ hop] at h
    cases h

/-- Settles O15: an instruction's record is that of its word, and every other record is the sentinel. -/
theorem formatterTemplates : Obligations.FormatterTemplates := by
  intro b0 b1 b2 b3 offset r
  cases hinstr : r.toInstr with
  | none => exact format_of_no_handler hinstr
  | some i =>
    have hformat : format r = instrRendering i := by
      have hrecord : r = decodeWord (assemble b0 b1 b2 b3) offset :=
        decodeBytes_of_ok ((decodeInstr_eq_ok offset).mpr hinstr) offset
      rw [hrecord] at hinstr ⊢
      exact format_decodeWord hinstr
    cases i <;> exact hformat

end Sys2Proof.Machine

/-! ## Decoding the encoding

The decoder gives every well-formed instruction back from its own encoding (R84 to R100 of spec/30_encoding.md, R158
of spec/40_decoder.md). -/

namespace Sys2Proof

/-- The four bytes of a 4-byte word stand for what the word stands for. -/
theorem decodeInstr_byteOf {w : InstrWord} (h : lenBits w = 0b11#2) :
    decodeInstr (byteOf w 0) (byteOf w 1) (byteOf w 2) (byteOf w 3) = decodeInstrWord w := by
  have hfour : (byteOf w 0).extractLsb' 0 2 = 0b11#2 := by
    rw [← lenBits_assemble _ (byteOf w 1) (byteOf w 2) (byteOf w 3), assemble_byteOf, h]
  rw [decodeInstr_of_four hfour, assemble_byteOf]

/-- Every encoding is a 4-byte word. -/
theorem lenBits_encode (i : Instr) : lenBits (encode i) = 0b11#2 := by
  cases i with
  | jal => exact (Laws.EncodedRow.jal ..).2
  | jalr => exact (Laws.EncodedRow.jalr ..).2
  | lui => exact (Laws.EncodedRow.lui ..).2
  | auipc => exact (Laws.EncodedRow.auipc ..).2
  | addi => exact (Laws.EncodedRow.addi ..).2
  | add => exact (Laws.EncodedRow.add ..).2
  | blt => exact (Laws.EncodedRow.blt ..).2
  | lb => exact (Laws.EncodedRow.lb ..).2
  | sb => exact (Laws.EncodedRow.sb ..).2

/-- The encoder puts each operand where the decoder of the same opcode reads it. -/
theorem decodeInstrWord_encode {i : Instr} (hwf : i.wellFormed = true) : decodeInstrWord (encode i) = .ok i := by
  cases i with
  | jal rd imm =>
    obtain ⟨hrd, hop, -⟩ := encodeJ_fields imm rd 0b11011#5
    rw [encode, decodeInstrWord_jal hop, hrd, fieldReg_regField, immJ_encodeJ hwf]
  | jalr rd rs1 imm =>
    obtain ⟨-, hrs1, h3, hrd, hop, -⟩ := encodeI_fields imm rd rs1 0b000#3 0b11001#5
    rw [encode, decodeInstrWord_jalr hop, if_pos h3, hrd, hrs1, fieldReg_regField, fieldReg_regField, immI_encodeI hwf]
  | lui rd imm =>
    obtain ⟨-, hrd, hop, -⟩ := encodeU_fields (imm.extractLsb' 0 20) rd 0b01101#5
    rw [encode, decodeInstrWord_lui hop, hrd, fieldReg_regField, immU20_encodeU hwf]
  | auipc rd imm =>
    obtain ⟨-, hrd, hop, -⟩ := encodeU_fields (imm.extractLsb' 12 20) rd 0b00101#5
    rw [encode, decodeInstrWord_auipc hop, hrd, fieldReg_regField, immU_encodeU hwf]
  | addi rd rs1 imm =>
    obtain ⟨-, hrs1, h3, hrd, hop, -⟩ := encodeI_fields imm rd rs1 0b000#3 0b00100#5
    rw [encode, decodeInstrWord_opImm hop, if_pos h3, hrd, hrs1, fieldReg_regField, fieldReg_regField,
      immI_encodeI hwf]
  | add rd rs1 rs2 =>
    obtain ⟨h7, hrs2, hrs1, h3, hrd, hop, -⟩ := encodeR_fields rd rs1 rs2 0b000#3 0b0000000#7 0b01100#5
    rw [encode, decodeInstrWord_op hop, if_pos ⟨h3, h7⟩, hrd, hrs1, hrs2]
    simp only [fieldReg_regField]
  | blt rs1 rs2 imm =>
    obtain ⟨hrs2, hrs1, h3, hop, -⟩ := encodeB_fields imm rs2 rs1 0b100#3 0b11000#5
    rw [encode, decodeInstrWord_branch hop, if_pos h3, hrs1, hrs2, fieldReg_regField, fieldReg_regField,
      immB_encodeB hwf]
  | lb rd rs1 imm =>
    obtain ⟨-, hrs1, h3, hrd, hop, -⟩ := encodeI_fields imm rd rs1 0b000#3 0b00000#5
    rw [encode, decodeInstrWord_load hop, if_pos h3, hrd, hrs1, fieldReg_regField, fieldReg_regField, immI_encodeI hwf]
  | sb rs1 rs2 imm =>
    obtain ⟨-, hrs2, hrs1, h3, -, hop, -⟩ := encodeS_fields imm rs1 rs2 0b000#3 0b01000#5
    rw [encode, decodeInstrWord_store hop, if_pos h3, hrs1, hrs2, fieldReg_regField, fieldReg_regField,
      immS_encodeS hwf]

/-- Settles O5: the bytes of an encoding are its word, which the decoder of its opcode reads back. -/
theorem decodeOfEncodeIsIdentity : Obligations.DecodeOfEncodeIsIdentity := by
  intro i hwf
  rw [decodeInstr_byteOf (lenBits_encode i), decodeInstrWord_encode hwf]

end Sys2Proof

/-! ## Encoding what was decoded

Every immediate the decoder makes is in the range of its format, and the fields of a decoded instruction are all of its
word (R159 (g), (i) of spec/40_decoder.md). -/

namespace Sys2Proof

theorem inRange_iff {v : Word} {lo hi : Int} : inRange v lo hi = true ↔ lo ≤ v.toInt ∧ v.toInt ≤ hi := by
  simp [inRange]

/-- Being a multiple of `2^n` is the same of the unsigned and of the signed number. -/
theorem lowBitsZero_iff {v : Word} {n : Nat} (hn : n ≤ 64) : lowBitsZero v n = true ↔ v.toInt % 2 ^ n = 0 := by
  have hwidth : ((2 ^ n : Nat) : Int) ∣ ((2 ^ 64 : Nat) : Int) := Int.natCast_dvd_natCast.mpr (Nat.pow_dvd_pow 2 hn)
  have hunsigned : lowBitsZero v n = true ↔ ((2 ^ n : Nat) : Int) ∣ v.toNat := by
    rw [lowBitsZero, beq_iff_eq, ← Nat.dvd_iff_mod_eq_zero, Int.natCast_dvd_natCast]
  have hsigned : ((2 ^ n : Nat) : Int) ∣ v.toInt ↔ ((2 ^ n : Nat) : Int) ∣ v.toNat := by
    rw [BitVec.toInt_eq_toNat_cond]
    split_ifs
    · rfl
    · exact dvd_sub_left hwidth
  rw [hunsigned, ← hsigned, Int.dvd_iff_emod_eq_zero, Nat.cast_pow, Nat.cast_ofNat]

section
variable (w : InstrWord)

theorem fitsImm12_immI : fitsImm12 (immI w) = true := by
  obtain ⟨hrange, -⟩ := immediateRanges w
  exact inRange_iff.mpr hrange

theorem fitsImm12_immS : fitsImm12 (immS w) = true := by
  obtain ⟨-, hrange, -⟩ := immediateRanges w
  exact inRange_iff.mpr hrange

theorem fitsImmB_immB : fitsImmB (immB w) = true := by
  obtain ⟨-, -, ⟨hlo, hhi, heven⟩, -⟩ := immediateRanges w
  exact Bool.and_eq_true_iff.mpr ⟨inRange_iff.mpr ⟨hlo, hhi⟩, (lowBitsZero_iff (by decide)).mpr heven⟩

theorem fitsImmU_immU : fitsImmU (immU w) = true := by
  obtain ⟨-, -, -, ⟨hlo, hhi, hpage⟩, -⟩ := immediateRanges w
  exact Bool.and_eq_true_iff.mpr ⟨inRange_iff.mpr ⟨hlo, hhi⟩, (lowBitsZero_iff (by decide)).mpr hpage⟩

theorem fitsImmU20_immU20 : fitsImmU20 (immU20 w) = true := by
  obtain ⟨-, -, -, -, ⟨hlo, hhi, -⟩, -⟩ := immediateRanges w
  exact inRange_iff.mpr ⟨hlo, hhi⟩

theorem fitsImmJ_immJ : fitsImmJ (immJ w) = true := by
  obtain ⟨-, -, -, -, -, hlo, hhi, heven⟩ := immediateRanges w
  exact Bool.and_eq_true_iff.mpr ⟨inRange_iff.mpr ⟨hlo, hhi⟩, (lowBitsZero_iff (by decide)).mpr heven⟩

end

/-! A 4-byte word is the encoding, in any of the six formats, of the fields the decoder of that format takes from it. -/

section
variable {w : InstrWord} (hlen : lenBits w = 0b11#2)
include hlen

theorem encodeR_decoded : encodeR (funct7Of w) (fieldReg (rs2Of w)) (fieldReg (rs1Of w)) (funct3Of w)
    (fieldReg (rdOf w)) (op5Of w) = w := by
  simp only [encodeR, regField_fieldReg]
  rw [← hlen, fields_append]

theorem encodeI_decoded :
    encodeI (immI w) (fieldReg (rs1Of w)) (funct3Of w) (fieldReg (rdOf w)) (op5Of w) = w := by
  simp only [encodeI, regField_fieldReg]
  rw [← hlen]
  apply BitVec.eq_of_getLsbD_eq
  intro i hi
  simp only [immI, sext, rs1Of, funct3Of, rdOf, op5Of, lenBits, BitVec.getLsbD_append, BitVec.getLsbD_extractLsb',
    BitVec.getLsbD_signExtend]
  interval_cases i <;> simp

theorem encodeS_decoded :
    encodeS (immS w) (fieldReg (rs2Of w)) (fieldReg (rs1Of w)) (funct3Of w) (op5Of w) = w := by
  simp only [encodeS, regField_fieldReg]
  rw [← hlen]
  apply BitVec.eq_of_getLsbD_eq
  intro i hi
  simp only [immS, sext, rs2Of, rs1Of, funct3Of, op5Of, lenBits, BitVec.getLsbD_append, BitVec.getLsbD_extractLsb',
    BitVec.getLsbD_signExtend]
  interval_cases i <;> simp

theorem encodeB_decoded :
    encodeB (immB w) (fieldReg (rs2Of w)) (fieldReg (rs1Of w)) (funct3Of w) (op5Of w) = w := by
  simp only [encodeB, regField_fieldReg]
  rw [← hlen]
  apply BitVec.eq_of_getLsbD_eq
  intro i hi
  simp only [immB, sext, rs2Of, rs1Of, funct3Of, op5Of, lenBits, BitVec.getLsbD_append, BitVec.getLsbD_extractLsb',
    BitVec.getLsbD_signExtend]
  interval_cases i <;> simp

theorem encodeU_decoded : encodeU (w.extractLsb' 12 20) (fieldReg (rdOf w)) (op5Of w) = w := by
  simp only [encodeU, regField_fieldReg]
  rw [← hlen]
  apply BitVec.eq_of_getLsbD_eq
  intro i hi
  simp only [rdOf, op5Of, lenBits, BitVec.getLsbD_append, BitVec.getLsbD_extractLsb']
  interval_cases i <;> simp

theorem encodeJ_decoded : encodeJ (immJ w) (fieldReg (rdOf w)) (op5Of w) = w := by
  simp only [encodeJ, regField_fieldReg]
  rw [← hlen]
  apply BitVec.eq_of_getLsbD_eq
  intro i hi
  simp only [immJ, sext, rdOf, op5Of, lenBits, BitVec.getLsbD_append, BitVec.getLsbD_extractLsb',
    BitVec.getLsbD_signExtend]
  interval_cases i <;> simp

end

/-- LUI's slot holds the upper field as its low bits (R94). -/
theorem immU20_field (w : InstrWord) : (immU20 w).extractLsb' 0 20 = w.extractLsb' 12 20 := by
  apply BitVec.eq_of_getLsbD_eq
  intro i hi
  rw [BitVec.getLsbD_extractLsb', immU20, sext_getLsbD_of_lt _ (by decide) (by omega)]
  simp [hi]

/-- AUIPC's slot holds the upper field above its twelve zeros (R93). -/
theorem immU_field (w : InstrWord) : (immU w).extractLsb' 12 20 = w.extractLsb' 12 20 := by
  apply BitVec.eq_of_getLsbD_eq
  intro i hi
  rw [BitVec.getLsbD_extractLsb', immU, sext_getLsbD_of_lt _ (by decide) (by omega), BitVec.getLsbD_append]
  simp

/-- An answer that a condition decides is an instruction exactly when the condition holds. -/
theorem accept_eq_ok_iff {c : Prop} [Decidable c] {i j : Instr} {r : Reject} :
    (if c then Decoded.ok i else .rejected r) = .ok j ↔ c ∧ i = j := by
  split_ifs with hc <;> simp [hc]

/-- R159 (g), (i) of a 4-byte word: each opcode's immediate fits its format, and its format's encoding of the fields is
the word. -/
theorem wellFormed_and_encode_of_decodeInstrWord {w : InstrWord} {i : Instr} (hlen : lenBits w = 0b11#2)
    (h : decodeInstrWord w = .ok i) : i.wellFormed = true ∧ encode i = w := by
  rcases op5_cases w with hop | hop | hop | hop | hop | hop | hop | hop | hop | hop
  · rw [decodeInstrWord_load hop, accept_eq_ok_iff] at h
    obtain ⟨h3, rfl⟩ := h
    exact ⟨fitsImm12_immI w, by simpa only [encode, h3, hop] using encodeI_decoded hlen⟩
  · rw [decodeInstrWord_opImm hop, accept_eq_ok_iff] at h
    obtain ⟨h3, rfl⟩ := h
    exact ⟨fitsImm12_immI w, by simpa only [encode, h3, hop] using encodeI_decoded hlen⟩
  · rw [decodeInstrWord_auipc hop] at h
    cases h
    exact ⟨fitsImmU_immU w, by simpa only [encode, immU_field, hop] using encodeU_decoded hlen⟩
  · rw [decodeInstrWord_store hop, accept_eq_ok_iff] at h
    obtain ⟨h3, rfl⟩ := h
    exact ⟨fitsImm12_immS w, by simpa only [encode, h3, hop] using encodeS_decoded hlen⟩
  · rw [decodeInstrWord_op hop, accept_eq_ok_iff] at h
    obtain ⟨⟨h3, h7⟩, rfl⟩ := h
    exact ⟨rfl, by simpa only [encode, h3, h7, hop] using encodeR_decoded hlen⟩
  · rw [decodeInstrWord_lui hop] at h
    cases h
    exact ⟨fitsImmU20_immU20 w, by simpa only [encode, immU20_field, hop] using encodeU_decoded hlen⟩
  · rw [decodeInstrWord_branch hop, accept_eq_ok_iff] at h
    obtain ⟨h3, rfl⟩ := h
    exact ⟨fitsImmB_immB w, by simpa only [encode, h3, hop] using encodeB_decoded hlen⟩
  · rw [decodeInstrWord_jalr hop, accept_eq_ok_iff] at h
    obtain ⟨h3, rfl⟩ := h
    exact ⟨fitsImm12_immI w, by simpa only [encode, h3, hop] using encodeI_decoded hlen⟩
  · rw [decodeInstrWord_jal hop] at h
    cases h
    exact ⟨fitsImmJ_immJ w, by simpa only [encode, hop] using encodeJ_decoded hlen⟩
  · rw [decodeInstrWord_unmapped hop] at h
    cases h

/-- Settles O6: bytes that are an instruction are a 4-byte word, and the word determines the instruction's fields. -/
theorem encodeOfDecodeIsIdentity : Obligations.EncodeOfDecodeIsIdentity := by
  intro b0 b1 b2 b3 i h
  by_cases hfour : b0.extractLsb' 0 2 = 0b11#2
  · rw [decodeInstr_of_four hfour] at h
    exact wellFormed_and_encode_of_decodeInstrWord ((lenBits_assemble b0 b1 b2 b3).trans hfour) h
  · rw [decodeInstr_of_not_four hfour] at h
    cases h

end Sys2Proof

/-! ## Decoded records

The record of every word and of every compressed halfword (R153 to R155 of spec/40_decoder.md), the table walk as R158's
one function, and the fetch as a function of the bytes it reads (R130). -/

namespace Sys2Proof

open Machine

/-- R136: a first byte that starts no 4-byte instruction gives the stub, whatever follows it. -/
theorem decodeBytes_of_not_four {b0 : Byte} (h : b0.extractLsb' 0 2 ≠ 0b11#2) (b1 b2 b3 : Byte) (offset : Word) :
    decodeBytes b0 b1 b2 b3 offset = Record.compressedStub offset :=
  if_neg fun h4 => h (beq_iff_eq.mp h4)

/-- R172: an `Unknown` record has no handler, so the Engine's step on it fails. -/
theorem engineStep_of_unknown {r : Record} {s : State} (hid : r.id = .unknown) (haddr : r.address = s.pc) :
    engineStep r s = .fault .illegalInstruction := by
  have hnone : r.toInstr = none := by rw [Record.toInstr, hid]
  rw [engineStep, if_pos haddr, hnone]

/-- Settles O13: the record is the stub, which has no handler. -/
theorem compressedRecord : Obligations.CompressedRecord := by
  intro b0 b1 b2 b3 offset hfour
  rw [decodeBytes_of_not_four hfour]
  exact ⟨rfl, rfl, fun s hpc => engineStep_of_unknown rfl hpc.symm⟩

/-- Settles O20: the record of a 4-byte instruction is that of its four bytes, and of a 2-byte one that of the first. -/
theorem fetchReadsOnlyTheInstruction : Obligations.FetchReadsOnlyTheInstruction := by
  intro s t hpc hs ht hfirst hrest
  rw [fetch_of_admitted hs, fetch_of_admitted ht, decodeAt, decodeAt, ← hpc, ← hfirst]
  by_cases hfour : (s.mem.byteAt s.pc.toNat).extractLsb' 0 2 = 0b11#2
  · have hsame := hrest (beq_iff_eq.mpr hfour)
    rw [hsame 1 (by decide) (by decide), hsame 2 (by decide) (by decide), hsame 3 (by decide) (by decide)]
  · rw [decodeBytes_of_not_four hfour, decodeBytes_of_not_four hfour]

/-- Settles O7: both functions give a compressed halfword the stub, and a word of each opcode the same record. -/
theorem tableWalkIsWholeDecoder : Obligations.TableWalkIsWholeDecoder := by
  intro b0 b1 b2 b3 offset
  by_cases hfour : b0.extractLsb' 0 2 = 0b11#2
  · rw [decodeBytes_of_four hfour, decodeWhole, if_neg (not_not.mpr hfour)]
    have hopcode : (b3 ++ b2 ++ b1 ++ b0).extractLsb' 2 5 = op5Of (assemble b0 b1 b2 b3) := rfl
    rcases op5_cases (assemble b0 b1 b2 b3) with hop | hop | hop | hop | hop | hop | hop | hop | hop | hop
    · rw [decodeWord_load _ hop]
      simp only [hopcode, hop, reduceIte]
      rfl
    · rw [decodeWord_opImm _ hop]
      simp only [hopcode, hop, reduceIte]
      rfl
    · rw [decodeWord_auipc _ hop]
      simp only [hopcode, hop, reduceIte]
      rfl
    · rw [decodeWord_store _ hop]
      simp only [hopcode, hop, reduceIte]
      rfl
    · rw [decodeWord_op _ hop]
      simp only [hopcode, hop, reduceIte]
      rfl
    · rw [decodeWord_lui _ hop]
      simp only [hopcode, hop, reduceIte]
      rfl
    · rw [decodeWord_branch _ hop]
      simp only [hopcode, hop, reduceIte]
      rfl
    · rw [decodeWord_jalr _ hop]
      simp only [hopcode, hop, reduceIte]
      rfl
    · rw [decodeWord_jal _ hop]
      simp only [hopcode, hop, reduceIte]
      rfl
    · rw [decodeWord_unmapped _ hop]
      simp only [mappedOpcodes, List.mem_cons, List.not_mem_nil, or_false, not_or] at hop
      simp only [hopcode, hop, if_false]
  · rw [decodeBytes_of_not_four hfour, decodeWhole, if_pos hfour]
    rfl

/-- Settles O11: each row's mask fixes the opcode and the function codes, and with them the record. -/
theorem knownRecords : Obligations.KnownRecords := by
  intro w offset
  refine ⟨fun h => ?_, fun h => ?_, fun h => ?_, fun h => ?_, fun h => ?_, fun h => ?_, fun h => ?_, fun h => ?_,
    fun h => ?_⟩
  · obtain ⟨hop, -⟩ := (and_7F_eq_iff w 0b11011#5 _ (by decide)).mp h
    exact decodeWord_jal _ hop
  · obtain ⟨hop, h3, -⟩ := (and_707F_eq_iff w 0b000#3 0b11001#5 _ (by decide)).mp h
    rw [decodeWord_jalr _ hop, if_pos h3]
  · obtain ⟨hop, -⟩ := (and_7F_eq_iff w 0b01101#5 _ (by decide)).mp h
    exact decodeWord_lui _ hop
  · obtain ⟨hop, -⟩ := (and_7F_eq_iff w 0b00101#5 _ (by decide)).mp h
    exact decodeWord_auipc _ hop
  · obtain ⟨hop, h3, -⟩ := (and_707F_eq_iff w 0b000#3 0b00100#5 _ (by decide)).mp h
    rw [decodeWord_opImm _ hop, if_pos h3]
  · obtain ⟨hop, h3, h7, -⟩ := (and_FE00707F_eq_iff w 0b0000000#7 0b000#3 0b01100#5 _ (by decide)).mp h
    rw [decodeWord_op _ hop, if_pos ⟨h3, h7⟩]
  · obtain ⟨hop, h3, -⟩ := (and_707F_eq_iff w 0b100#3 0b11000#5 _ (by decide)).mp h
    rw [decodeWord_branch _ hop, if_pos h3]
  · obtain ⟨hop, h3, -⟩ := (and_707F_eq_iff w 0b000#3 0b00000#5 _ (by decide)).mp h
    rw [decodeWord_load _ hop, if_pos h3]
  · obtain ⟨hop, h3, -⟩ := (and_707F_eq_iff w 0b000#3 0b01000#5 _ (by decide)).mp h
    rw [decodeWord_store _ hop, if_pos h3]

@[simp] theorem decodeWord_address (w : InstrWord) (offset : Word) : (decodeWord w offset).address = offset := by
  rw [decodeWord_offset]

/-- Settles O12: the opcode and the failing code give each record, and an `Unknown` id has no handler. -/
theorem unknownRecords : Obligations.UnknownRecords := by
  intro w offset
  refine ⟨decodeWord_unmapped offset, fun hop h3 => ?_, fun hop h3 => ?_, fun hop h3 => ?_, fun hop h3 => ?_,
    fun hop hcode => ?_, fun hid s hpc => engineStep_of_unknown hid ((decodeWord_address w offset).trans hpc.symm)⟩
  · rcases List.mem_pair.mp hop with hop | hop
    · rw [decodeWord_load _ hop, if_neg h3]
    · rw [decodeWord_opImm _ hop, if_neg h3]
  · rw [decodeWord_store _ hop, if_neg h3]
  · rw [decodeWord_branch _ hop, if_neg h3]
  · rw [decodeWord_jalr _ hop, if_neg h3]
  · rw [decodeWord_op _ hop, if_neg (not_and_or.mpr hcode)]

end Sys2Proof

/-! ## Ids and flags

When an id is known, and what every record has whatever its id (R159 of spec/40_decoder.md). -/

namespace Sys2Proof

open Machine

/-- Every row tests the length bits for `0b11`, so it admits 4-byte words only (R81, R100). -/
theorem lenBits_of_admits {w : InstrWord} {row : OpcodeRow} (hrow : row ∈ opcodeRows) (h : row.admits w = true) :
    lenBits w = 0b11#2 := by
  have hlow : ∀ p ∈ opcodeRows, lenBits p.mask = BitVec.allOnes 2 ∧ lenBits p.pattern = 0b11#2 := by decide
  obtain ⟨hmask, hpattern⟩ := hlow row hrow
  calc lenBits w = lenBits w &&& lenBits row.mask := by rw [hmask, BitVec.and_allOnes]
    _ = lenBits (w &&& row.mask) := BitVec.extractLsb'_and.symm
    _ = lenBits row.pattern := congrArg lenBits (beq_iff_eq.mp h)
    _ = 0b11#2 := hpattern

/-- An id that a condition decides is known exactly when the condition holds. -/
theorem code_accepted_of_known {c : Prop} [Decidable c] {k : InstrId} (h : (if c then k else InstrId.unknown) ≠ .unknown) : c :=
  by_contra fun hc => h (if_neg hc)

/-- A 4-byte word with a known id meets the conditions of the row of that id. -/
theorem admits_of_known {w : InstrWord} (hlen : lenBits w = 0b11#2) {offset : Word}
    (hid : (decodeWord w offset).id ≠ .unknown) :
    ∃ row ∈ opcodeRows, row.admits w = true ∧ row.id = (decodeWord w offset).id := by
  rcases op5_cases w with hop | hop | hop | hop | hop | hop | hop | hop | hop | hop
  · rw [decodeWord_load _ hop] at hid ⊢
    have h3 := code_accepted_of_known hid
    refine ⟨⟨.lb, 0x707F#32, 0x3#32⟩, by decide, beq_iff_eq.mpr ?_, (if_pos h3).symm⟩
    exact (and_707F_eq_iff w 0b000#3 0b00000#5 _ (by decide)).mpr ⟨hop, h3, hlen⟩
  · rw [decodeWord_opImm _ hop] at hid ⊢
    have h3 := code_accepted_of_known hid
    refine ⟨⟨.addi, 0x707F#32, 0x13#32⟩, by decide, beq_iff_eq.mpr ?_, (if_pos h3).symm⟩
    exact (and_707F_eq_iff w 0b000#3 0b00100#5 _ (by decide)).mpr ⟨hop, h3, hlen⟩
  · rw [decodeWord_auipc _ hop]
    refine ⟨⟨.auipc, 0x7F#32, 0x17#32⟩, by decide, beq_iff_eq.mpr ?_, rfl⟩
    exact (and_7F_eq_iff w 0b00101#5 _ (by decide)).mpr ⟨hop, hlen⟩
  · rw [decodeWord_store _ hop] at hid ⊢
    have h3 := code_accepted_of_known hid
    refine ⟨⟨.sb, 0x707F#32, 0x23#32⟩, by decide, beq_iff_eq.mpr ?_, (if_pos h3).symm⟩
    exact (and_707F_eq_iff w 0b000#3 0b01000#5 _ (by decide)).mpr ⟨hop, h3, hlen⟩
  · rw [decodeWord_op _ hop] at hid ⊢
    obtain ⟨h3, h7⟩ := code_accepted_of_known hid
    refine ⟨⟨.add, 0xFE00707F#32, 0x33#32⟩, by decide, beq_iff_eq.mpr ?_, (if_pos ⟨h3, h7⟩).symm⟩
    exact (and_FE00707F_eq_iff w 0b0000000#7 0b000#3 0b01100#5 _ (by decide)).mpr ⟨hop, h3, h7, hlen⟩
  · rw [decodeWord_lui _ hop]
    refine ⟨⟨.lui, 0x7F#32, 0x37#32⟩, by decide, beq_iff_eq.mpr ?_, rfl⟩
    exact (and_7F_eq_iff w 0b01101#5 _ (by decide)).mpr ⟨hop, hlen⟩
  · rw [decodeWord_branch _ hop] at hid ⊢
    have h3 := code_accepted_of_known hid
    refine ⟨⟨.blt, 0x707F#32, 0x4063#32⟩, by decide, beq_iff_eq.mpr ?_, (if_pos h3).symm⟩
    exact (and_707F_eq_iff w 0b100#3 0b11000#5 _ (by decide)).mpr ⟨hop, h3, hlen⟩
  · rw [decodeWord_jalr _ hop] at hid ⊢
    have h3 := code_accepted_of_known hid
    refine ⟨⟨.jalr, 0x707F#32, 0x67#32⟩, by decide, beq_iff_eq.mpr ?_, (if_pos h3).symm⟩
    exact (and_707F_eq_iff w 0b000#3 0b11001#5 _ (by decide)).mpr ⟨hop, h3, hlen⟩
  · rw [decodeWord_jal _ hop]
    refine ⟨⟨.jal, 0x7F#32, 0x6F#32⟩, by decide, beq_iff_eq.mpr ?_, rfl⟩
    exact (and_7F_eq_iff w 0b11011#5 _ (by decide)).mpr ⟨hop, hlen⟩
  · rw [decodeWord_unmapped _ hop] at hid
    exact absurd rfl hid

/-- Settles O9: an admitted word is a 4-byte one with its row's id, and a known id has its row. -/
theorem knownIdIffRowAdmits : Obligations.KnownIdIffRowAdmits := by
  intro b0 b1 b2 b3 offset k hk
  constructor
  · rintro rfl
    by_cases hfour : b0.extractLsb' 0 2 = 0b11#2
    · rw [decodeBytes_of_four hfour] at hk ⊢
      exact admits_of_known ((lenBits_assemble b0 b1 b2 b3).trans hfour) hk
    · rw [decodeBytes_of_not_four hfour] at hk
      exact absurd rfl hk
  · rintro ⟨row, hrow, hadmits, rfl⟩
    have hfour : b0.extractLsb' 0 2 = 0b11#2 :=
      (lenBits_assemble b0 b1 b2 b3).symm.trans (lenBits_of_admits hrow hadmits)
    rw [decodeBytes_of_four hfour]
    exact decodeWord_id_of_admits hrow hadmits offset

/-- What every decoded record has by R135 and R159 (b), (e), (f), (h): its id, its flags and its register slots. -/
structure Record.Regular (r : Record) : Prop where
  decoded : r.id ≠ .invalid
  known : r.id ≠ .unknown → r.flags.formatCount = 1 ∧ r.flags.compressed = false ∧
    (r.flags.ct = true ↔ r.id = .jal ∨ r.id = .jalr ∨ r.id = .blt)
  unknown : r.id = .unknown → r.flags.formatCount ≤ 1
  slot0 : r.slot0.toNat ≤ 31
  slot1 : (r.flags.fmtR ∨ r.flags.fmtI ∨ r.flags.fmtS ∨ r.flags.fmtB) → r.slot1.toNat ≤ 31
  slot2 : r.flags.fmtR → r.slot2.toNat ≤ 31

/-- A register slot is a 5-bit field extended by zeros (R134). -/
theorem zext_reg_le (b : BitVec 5) : (zext b).toNat ≤ 31 := by
  have := b.isLt
  rw [zext, BitVec.toNat_setWidth]
  omega

theorem compressedStub_regular (offset : Word) : (Record.compressedStub offset).Regular := by
  constructor <;> simp [Record.compressedStub, Record.blank, Flags.formatCount]

theorem decodeWord_regular (w : InstrWord) (offset : Word) : (decodeWord w offset).Regular := by
  have hrd := zext_reg_le (rdOf w)
  have hrs1 := zext_reg_le (rs1Of w)
  have hrs2 := zext_reg_le (rs2Of w)
  rcases op5_cases w with hop | hop | hop | hop | hop | hop | hop | hop | hop | hop
  · rw [decodeWord_load _ hop]
    split_ifs <;> constructor <;> simp [Flags.formatCount, hrd, hrs1]
  · rw [decodeWord_opImm _ hop]
    split_ifs <;> constructor <;> simp [Flags.formatCount, hrd, hrs1]
  · rw [decodeWord_auipc _ hop]
    constructor <;> simp [Flags.formatCount, hrd]
  · rw [decodeWord_store _ hop]
    split_ifs <;> constructor <;> simp [Flags.formatCount, hrs1, hrs2]
  · rw [decodeWord_op _ hop]
    split_ifs <;> constructor <;> simp [Flags.formatCount, hrd, hrs1, hrs2]
  · rw [decodeWord_lui _ hop]
    constructor <;> simp [Flags.formatCount, hrd]
  · rw [decodeWord_branch _ hop]
    split_ifs <;> constructor <;> simp [Flags.formatCount, hrs1, hrs2]
  · rw [decodeWord_jalr _ hop]
    split_ifs <;> constructor <;> simp [Flags.formatCount, hrd, hrs1]
  · rw [decodeWord_jal _ hop]
    constructor <;> simp [Flags.formatCount, hrd]
  · rw [decodeWord_unmapped _ hop]
    constructor <;> simp [Flags.formatCount]

theorem decodeBytes_regular (b0 b1 b2 b3 : Byte) (offset : Word) : (decodeBytes b0 b1 b2 b3 offset).Regular := by
  by_cases hfour : b0.extractLsb' 0 2 = 0b11#2
  · rw [decodeBytes_of_four hfour]
    exact decodeWord_regular _ offset
  · rw [decodeBytes_of_not_four hfour]
    exact compressedStub_regular offset

/-- R81, R159 (a): the first byte decides the size. -/
theorem decodeBytes_size (b0 b1 b2 b3 : Byte) (offset : Word) :
    (decodeBytes b0 b1 b2 b3 offset).size = if isFourByte b0 then 4 else 2 := by
  unfold decodeBytes
  split
  · exact decodeWord_size _ offset
  · rfl

/-- Settles O10: the size is the first byte's, the address the offset, the rest what every decoded record has. -/
theorem recordProperties : Obligations.RecordProperties := by
  intro b0 b1 b2 b3 offset r
  obtain ⟨hdecoded, hknown, hunknown, hslot0, hslot1, hslot2⟩ : r.Regular := decodeBytes_regular b0 b1 b2 b3 offset
  exact ⟨⟨rfl, decodeBytes_size b0 b1 b2 b3 offset⟩, hdecoded, decodeBytes_address b0 b1 b2 b3 offset, hknown,
    hunknown, hslot0, hslot1, hslot2⟩

end Sys2Proof

/-! ## The step protocol

Register 0 around every step (R176, R177, R179), and the step as R181's one function over the handlers' pseudocode and
R158's whole decoder. -/

namespace Sys2Proof.Machine

/-- Settles O42: a read after the forcing is what an instruction reads, and a write is seen at its own register only. -/
theorem forcingIsDroppingWrites : Obligations.ForcingIsDroppingWrites := by
  intro s rd r v
  rw [readReg_forceZero, x_writeReg, x_forceZero]

/-- Settles O46: every failure leaves the state of `abort`. -/
theorem failureLeavesStateUnchanged : Obligations.FailureLeavesStateUnchanged := by
  intro s f h
  rw [hostStep_of_failed h]
  exact abort_unchangedButZero s

/-- Settles O40: a completed step is a completed instruction, which ends in the forcing, and a failure forces too. -/
theorem registerZeroAfterEveryStep : Obligations.RegisterZeroAfterEveryStep := by
  refine ⟨fun i s t => exec_readReg_zero, fun s t h => ?_, fun s f h => ?_⟩
  · obtain ⟨i, -, hexec⟩ := step_eq_next.mp h
    exact exec_readReg_zero hexec
  · obtain ⟨-, hregs, -⟩ := failureLeavesStateUnchanged s f h
    exact hregs 0

section
variable (rd rs1 rs2 : Reg) (imm : Word) (s : State)

/-- R220: the two assignments of BLT's pseudocode are one to the pc selected. -/
theorem handlerOf_blt : handlerOf (.blt rs1 rs2 imm) s =
    .next (s.setPc (if lessThanSigned (s.readReg rs1) (s.readReg rs2) then s.relTarget imm else s.pc + instrSize)) := by
  simp only [handlerOf, lessThanSigned, decide_eq_true_eq]
  split_ifs <;> rfl

/-- R230: LB's pseudocode is the load of one byte. -/
theorem handlerOf_lb : handlerOf (.lb rd rs1 imm) s =
    s.loadByte (s.effAddr rs1 imm) fun b => .next (s.writeReg rd (sext b)) := by
  rcases Nat.lt_or_ge (s.effAddr rs1 imm).toNat s.mem.size with hlt | hge
  · rw [loadByte_of_lt hlt]
    exact if_pos hlt
  · rw [loadByte_of_ge hge]
    exact if_neg (Nat.not_lt.mpr hge)

/-- R231: SB's pseudocode is the store of the low byte, the port first. -/
theorem handlerOf_sb : handlerOf (.sb rs1 rs2 imm) s = s.storeByte (s.effAddr rs1 imm) (lowByte (s.readReg rs2)) := by
  rcases storeByte_cases s (s.effAddr rs1 imm) (lowByte (s.readReg rs2)) with
    ⟨hport, hsink, hstore⟩ | ⟨hport, hsink, hstore⟩ | ⟨hport, hlt, hstore⟩ | ⟨hport, hge, hstore⟩
  · rw [hstore]
    exact (if_pos hport).trans (if_pos hsink)
  · rw [hstore]
    exact (if_pos hport).trans (if_neg (ne_true_of_eq_false hsink))
  · rw [hstore]
    exact (if_neg hport).trans (if_pos hlt)
  · rw [hstore]
    exact (if_neg hport).trans (if_neg (Nat.not_lt.mpr hge))

end

/-- Every meaning is the protocol around its handler's pseudocode, with the control-transfer flag of its row. -/
theorem exec_eq_protocol_handlerOf (i : Instr) (s : State) :
    exec i s = protocol (isTransfer i) (handlerOf i) s := by
  cases i with
  | jal | jalr | lui | auipc | addi | add => rfl
  | blt rs1 rs2 imm => exact congrArg (protocol true · s) (funext (handlerOf_blt rs1 rs2 imm)).symm
  | lb rd rs1 imm => exact congrArg (protocol false · s) (funext (handlerOf_lb rd rs1 imm)).symm
  | sb rs1 rs2 imm => exact congrArg (protocol false · s) (funext (handlerOf_sb rs1 rs2 imm)).symm

/-- What the host is left with for an outcome of the step (R177, R270). -/
def hostAnswer (s : State) : Result → State × Status
  | .next t => (t, .completed)
  | .fault f => (s.abort, .failed f)
  | .refused r => (s, .refused r)

theorem hostStep_eq_hostAnswer (s : State) : hostStep s = hostAnswer s (step s) := by
  unfold hostStep
  cases step s <;> rfl

/-- R60, R181: the two tests before the decoding are the admission test, so the fetch fails in one of them. -/
theorem wholeStep_of_not_admitted {s : State} (h : s.fetchAdmitted = false) :
    wholeStep s = (s.abort, .failed (.fetchFault s.pc)) := by
  rw [← Bool.not_eq_true, fetchAdmitted_iff] at h
  by_cases hrange : 0 ≤ s.pc.toInt ∧ s.pc.toNat < s.mem.size
  · obtain ⟨hpc, hlt⟩ := hrange
    have hshort : (s.mem.byteAt s.pc.toNat).extractLsb' 0 2 = 0b11#2 ∧ s.pc.toNat + 4 > s.mem.size := by
      simpa [hpc, hlt] using h
    exact (if_neg (not_not.mpr ⟨hpc, hlt⟩)).trans (if_pos hshort)
  · exact if_pos hrange

/-- R181 past the admission test: the record is the Decoder's, its flag and size are those of its instruction, and the
handler inside the protocol is the meaning. -/
theorem wholeStep_of_admitted {s : State} (h : s.fetchAdmitted = true) : wholeStep s = hostAnswer s (step s) := by
  obtain ⟨hpc, hlt, hfits⟩ := (fetchAdmitted_iff s).mp h
  have hrange : ¬¬(0 ≤ s.pc.toInt ∧ s.pc.toNat < s.mem.size) := not_not.mpr ⟨hpc, hlt⟩
  have hlong : ¬((s.mem.byteAt s.pc.toNat).extractLsb' 0 2 = 0b11#2 ∧ s.pc.toNat + 4 > s.mem.size) :=
    fun ⟨hfour, hshort⟩ => Nat.not_lt.mpr (hfits hfour) hshort
  have hrecord : decodeWhole (s.mem.byteAt s.pc.toNat) (s.mem.byteAt (s.pc.toNat + 1)) (s.mem.byteAt (s.pc.toNat + 2))
      (s.mem.byteAt (s.pc.toNat + 3)) s.pc = decodeAt s.mem s.pc := (tableWalkIsWholeDecoder _ _ _ _ _).symm
  rw [wholeStep, if_neg hrange, if_neg hlong, step_of_admitted h]
  simp only [hrecord, decodeAt_toInstr]
  cases hfetched : s.fetchedInstr with
  | rejected => rfl
  | ok i =>
    obtain ⟨hct, hsize⟩ : (decodeAt s.mem s.pc).flags.ct = isTransfer i ∧ (decodeAt s.mem s.pc).size = 4 :=
      pcFollowsTheTable.1 _ _ _ _ s.pc i hfetched
    simp only [Decoded.toOption, hct, hsize, exec_eq_protocol_handlerOf, protocol, State.forceZero]
    cases handlerOf i (s.writeReg 0 0) <;> rfl

/-- Settles O35: the admission test fails in both steps alike, and past it both run one instruction. -/
theorem stepIsWholeCoreStep : Obligations.StepIsWholeCoreStep := by
  intro s
  rw [hostStep_eq_hostAnswer]
  cases h : s.fetchAdmitted
  · rw [wholeStep_of_not_admitted h, step_of_not_admitted h]
    rfl
  · exact (wholeStep_of_admitted h).symm

end Sys2Proof.Machine

/-! ## Jumps

What an instruction other than SB leaves unchanged, and the two jumps whole: word, link, target, frame (R190, R191 of
spec/42_jumps.md). -/

namespace Sys2Proof.Machine

/-- An instruction other than SB that completes moves the pc as R27's table says, writes no register but its
destination, and leaves memory and output as they were. -/
theorem exec_frame_of_not_sb {i : Instr} {s t : State} (hsb : ∀ rs1 rs2 imm, i ≠ .sb rs1 rs2 imm)
    (h : exec i s = .next t) :
    t.pc = newPc s i ∧ RegsKeptExcept (destOf i) s t ∧ MemoryKept s t ∧ OutputKept s t := by
  obtain ⟨hpc, hregs⟩ := exec_pc_and_regs h
  obtain ⟨hport, htrace⟩ := outputExactlyOnPortStores i s t h
  obtain ⟨hsize, hbytes⟩ := onlyStoresChangeMemory i s t h
  have hsilent : outputOf s i = [] := by
    cases i with
    | sb rs1 rs2 imm => exact absurd rfl (hsb rs1 rs2 imm)
    | _ => rfl
  refine ⟨hpc, hregs, ⟨hsize, fun a => ?_⟩, hport, by rw [htrace, hsilent, List.append_nil]⟩
  by_contra hchanged
  obtain ⟨rs1, rs2, imm, hi, -⟩ := hbytes a hchanged
  exact hsb rs1 rs2 imm hi

/-- Setting the pc after a register write does not disturb what was written. -/
theorem regWritten_setPc_complete (ct : Bool) (s : State) (rd : Reg) (v target : Word) :
    RegWritten rd v (((s.writeReg rd v).setPc target).complete ct) :=
  regWritten_complete ct (s.setPc target) rd v

/-- Settles O23: the mask fixes the opcode, and the meaning is one register write and one pc write. -/
theorem jalLinksAndJumps : Obligations.JalLinksAndJumps := by
  refine ⟨fun w offset h => ?_, fun rd imm s => ?_⟩
  · obtain ⟨hop, -⟩ := (and_7F_eq_iff w 0b11011#5 _ (by decide)).mp h
    obtain ⟨-, -, -, -, -, hrange⟩ := immediateRanges w
    exact ⟨decodeWord_jal offset hop, decodeInstrWord_jal hop, rfl, hrange⟩
  · have hexec := exec_jal rd imm s
    obtain ⟨hpc, hframe⟩ := exec_frame_of_not_sb (by simp) hexec
    exact ⟨_, hexec, hpc, regWritten_setPc_complete _ _ _ _ _, hframe⟩

/-- Settles O24: the function code decides between JALR and `Unknown`, and the target is computed from the base that
was read before the link is written (D13). -/
theorem jalrLinksAndJumps : Obligations.JalrLinksAndJumps := by
  refine ⟨fun w offset => ⟨fun h => ?_, fun h h3 => ?_⟩, fun rd rs1 imm s => ?_⟩
  · obtain ⟨hop, h3, -⟩ := (and_707F_eq_iff w 0b000#3 0b11001#5 _ (by decide)).mp h
    obtain ⟨hrange, -⟩ := immediateRanges w
    exact ⟨by rw [decodeWord_jalr offset hop, if_pos h3], by rw [decodeInstrWord_jalr hop, if_pos h3], rfl, hrange⟩
  · obtain ⟨hop, -⟩ := (and_7F_eq_iff w 0b11001#5 _ (by decide)).mp h
    rw [decodeWord_jalr offset hop, if_neg h3]
  · have hexec := exec_jalr rd rs1 imm s
    obtain ⟨hpc, hframe⟩ := exec_frame_of_not_sb (by simp) hexec
    exact ⟨_, hexec, hpc, regWritten_setPc_complete _ _ _ _ _, hframe⟩

end Sys2Proof.Machine

/-! ## Upper immediates

LUI's plain slot shifted back is AUIPC's shifted slot, and the two instructions whole: word, result, frame (R200, R201
of spec/43_upper_immediate.md). -/

namespace Sys2Proof

/-- Shifting an extended field left gives the extension of the field over that many zeros: both are the field's
signed number times `2^k` (R12). -/
theorem sext_shiftLeft {n : Nat} (v : BitVec n) (k : Nat) : sext v <<< k = sext (v ++ 0#k) := by
  have hpow : BitVec.twoPow 64 k = BitVec.ofInt 64 (2 ^ k) :=
    BitVec.eq_of_toNat_eq (by rw [BitVec.toNat_twoPow, BitVec.toNat_ofInt]; norm_cast)
  calc sext v <<< k = BitVec.ofInt 64 v.toInt * BitVec.ofInt 64 (2 ^ k) := by
        rw [BitVec.shiftLeft_eq_mul_twoPow, hpow, sext, BitVec.signExtend]
    _ = sext (v ++ 0#k) := by
        rw [sext, BitVec.signExtend, BitVec.toInt_append_zero, ← BitVec.ofInt_mul, Int.mul_comm]

/-- LUI's shift undoes what its decoding did to the slot (R147, R200). -/
theorem immU20_shiftLeft (w : InstrWord) : immU20 w <<< 12 = immU w := sext_shiftLeft _ 12

end Sys2Proof

namespace Sys2Proof.Machine

/-- Settles O25: the mask fixes the opcode, and the meaning is one register write before the generic advance. -/
theorem luiLoadsUpperField : Obligations.LuiLoadsUpperField := by
  refine ⟨fun w offset h => ?_, fun rd imm s => ?_⟩
  · obtain ⟨hop, -⟩ := (and_7F_eq_iff w 0b01101#5 _ (by decide)).mp h
    exact ⟨decodeWord_lui offset hop, decodeInstrWord_lui hop, rfl, immU20_shiftLeft w⟩
  · have hexec := exec_lui rd imm s
    obtain ⟨hpc, hframe⟩ := exec_frame_of_not_sb (by simp) hexec
    exact ⟨_, hexec, hpc, regWritten_complete _ _ _ _, hframe⟩

/-- Settles O26: the sum is written before the generic advance, so its pc is the instruction's own address. -/
theorem auipcAddsUpperFieldToPc : Obligations.AuipcAddsUpperFieldToPc := by
  refine ⟨fun w offset h => ?_, fun rd imm s => ?_⟩
  · obtain ⟨hop, -⟩ := (and_7F_eq_iff w 0b00101#5 _ (by decide)).mp h
    exact ⟨decodeWord_auipc offset hop, decodeInstrWord_auipc hop⟩
  · have hexec := exec_auipc rd imm s
    obtain ⟨hpc, hframe⟩ := exec_frame_of_not_sb (by simp) hexec
    exact ⟨_, hexec, hpc, regWritten_complete _ _ _ _, hframe⟩

end Sys2Proof.Machine

/-! ## Integer arithmetic

The two additions whole: word, sum, frame (R210, R211 of spec/44_integer_arith.md). -/

namespace Sys2Proof.Machine

/-- Settles O27: the function code decides between ADDI and `Unknown`, and the sum is written even into register 0,
where completing the step forces it away. -/
theorem addiAddsImmediate : Obligations.AddiAddsImmediate := by
  refine ⟨fun w offset => ⟨fun h => ?_, fun h h3 => ?_⟩, fun rd rs1 imm s => ?_⟩
  · obtain ⟨hop, h3, -⟩ := (and_707F_eq_iff w 0b000#3 0b00100#5 _ (by decide)).mp h
    obtain ⟨hrange, -⟩ := immediateRanges w
    exact ⟨by rw [decodeWord_opImm offset hop, if_pos h3], by rw [decodeInstrWord_opImm hop, if_pos h3], rfl, hrange⟩
  · obtain ⟨hop, -⟩ := (and_7F_eq_iff w 0b00100#5 _ (by decide)).mp h
    rw [decodeWord_opImm offset hop, if_neg h3]
  · have hexec := exec_addi rd rs1 imm s
    obtain ⟨hpc, hframe⟩ := exec_frame_of_not_sb (by simp) hexec
    exact ⟨_, hexec, hpc, regWritten_complete _ _ _ _, hframe⟩

/-- Settles O28: the mask fixes the opcode and both function codes, and the two registers are read from the state
before the write, so equal registers need no case of their own. -/
theorem addAddsRegisters : Obligations.AddAddsRegisters := by
  refine ⟨fun w offset h => ?_, fun rd rs1 rs2 s => ?_⟩
  · obtain ⟨hop, h3, h7, -⟩ := (and_FE00707F_eq_iff w 0b0000000#7 0b000#3 0b01100#5 _ (by decide)).mp h
    exact ⟨by rw [decodeWord_op offset hop, if_pos ⟨h3, h7⟩], by rw [decodeInstrWord_op hop, if_pos ⟨h3, h7⟩]⟩
  · have hexec := exec_add rd rs1 rs2 s
    obtain ⟨hpc, hframe⟩ := exec_frame_of_not_sb (by simp) hexec
    exact ⟨_, hexec, hpc, regWritten_complete _ _ _ _, hframe⟩

end Sys2Proof.Machine

/-! ## Branches

BLT whole: word, both paths of the pc, frame (R220 of spec/45_branch.md). -/

namespace Sys2Proof.Machine

/-- Settles O29: the mask fixes the opcode and the function code, and the meaning is one pc write that the generic
advance does not follow, so R27's row for BLT gives the pc of both paths. -/
theorem bltBranchesOnSignedLess : Obligations.BltBranchesOnSignedLess := by
  refine ⟨fun w offset h => ?_, fun rs1 rs2 imm s => ?_⟩
  · obtain ⟨hop, h3, -⟩ := (and_707F_eq_iff w 0b100#3 0b11000#5 _ (by decide)).mp h
    obtain ⟨-, -, hrange, -⟩ := immediateRanges w
    exact ⟨by rw [decodeWord_branch offset hop, if_pos h3], by rw [decodeInstrWord_branch hop, if_pos h3], rfl, hrange⟩
  · have hexec := exec_blt rs1 rs2 imm s
    exact ⟨_, hexec, exec_frame_of_not_sb (by simp) hexec⟩

end Sys2Proof.Machine

/-! ## Load and store

LB and SB whole: word, access, frame, and the fault outside memory (R230, R231 of spec/46_load_store.md, R63 of
spec/20_memory.md). -/

namespace Sys2Proof.Machine

/-- Settles O30: in range the meaning is one register write, whatever the port's address is, and outside memory it is
the fault. -/
theorem lbLoadsSignExtendedByte : Obligations.LbLoadsSignExtendedByte := by
  refine ⟨fun w offset h => ?_, fun rd rs1 imm s => ⟨fun hlt => ?_, exec_lb_of_ge⟩⟩
  · obtain ⟨hop, h3, -⟩ := (and_707F_eq_iff w 0b000#3 0b00000#5 _ (by decide)).mp h
    obtain ⟨hrange, -⟩ := immediateRanges w
    exact ⟨by rw [decodeWord_load offset hop, if_pos h3], by rw [decodeInstrWord_load hop, if_pos h3], rfl, hrange⟩
  · have hexec := exec_lb_of_lt (rd := rd) hlt
    obtain ⟨hpc, hframe⟩ := exec_frame_of_not_sb (by simp) hexec
    exact ⟨_, hexec, hpc, regWritten_complete _ _ _ _, hframe⟩

/-- SB that completes, at the port or off it, advances the pc, writes no register and keeps the port. -/
theorem exec_sb_frame {rs1 rs2 : Reg} {imm : Word} {s t : State} (h : exec (.sb rs1 rs2 imm) s = .next t) :
    t.pc = s.pc + 4 ∧ RegsKeptExcept none s t ∧ PortKept s t := by
  obtain ⟨hpc, hregs⟩ := exec_pc_and_regs h
  exact ⟨hpc, hregs, (exec_effects h).1⟩

/-- Settles O31: the port test comes before the range test, so the three cases exclude each other; a completing SB
emits one event or puts one byte, and never both. -/
theorem sbStoresLowByteOrOutputs : Obligations.SbStoresLowByteOrOutputs := by
  refine ⟨fun w offset h => ?_, fun rs1 rs2 imm s =>
    ⟨fun hport hsink => ?_, fun hport hlt hwf => ?_, exec_sb_of_ge⟩⟩
  · obtain ⟨hop, h3, -⟩ := (and_707F_eq_iff w 0b000#3 0b01000#5 _ (by decide)).mp h
    obtain ⟨-, hrange, -⟩ := immediateRanges w
    exact ⟨by rw [decodeWord_store offset hop, if_pos h3], by rw [decodeInstrWord_store hop, if_pos h3], rfl, hrange⟩
  · have hexec := exec_sb_at_port (rs2 := rs2) hport hsink
    obtain ⟨hpc, hregs, hkept⟩ := exec_sb_frame hexec
    exact ⟨_, hexec, hpc, by simp, hregs, by simp [MemoryKept], hkept⟩
  · have hexec := exec_sb_of_lt (rs2 := rs2) hport hlt
    obtain ⟨hpc, hregs, hkept⟩ := exec_sb_frame hexec
    refine ⟨_, hexec, hpc, ?_, ⟨?_, fun a ha => ?_⟩, hregs, hkept, by simp⟩
    · rw [complete_mem, setMem_mem, byteAt_put_self hwf]
    · rw [complete_mem, setMem_mem, put_size]
    · rw [complete_mem, setMem_mem, byteAt_put_of_ne _ _ ha]

end Sys2Proof.Machine

/-! ## Completion

Where an instruction completes (spec/42_jumps.md to spec/46_load_store.md). -/

namespace Sys2Proof.Machine

/-- Settles O33: seven instructions complete in every state, LB in range, and SB in each of its two cases. -/
theorem everyInstructionCompletes : Obligations.EveryInstructionCompletes := by
  intro i s h
  cases i with
  | jal => exact ⟨_, exec_jal ..⟩
  | jalr => exact ⟨_, exec_jalr ..⟩
  | lui => exact ⟨_, exec_lui ..⟩
  | auipc => exact ⟨_, exec_auipc ..⟩
  | addi => exact ⟨_, exec_addi ..⟩
  | add => exact ⟨_, exec_add ..⟩
  | blt => exact ⟨_, exec_blt ..⟩
  | lb => exact ⟨_, exec_lb_of_lt h⟩
  | sb =>
    rcases h with ⟨hport, hsink⟩ | ⟨hport, hlt⟩
    · exact ⟨_, exec_sb_at_port hport hsink⟩
    · exact ⟨_, exec_sb_of_lt hport hlt⟩

end Sys2Proof.Machine

/-! ## Failure outcomes

Which steps end in IllegalInstruction and which in AccessFault, and that a failed step fails again (R251, R253, R261 of
spec/60_exceptions.md). -/

namespace Sys2Proof.Machine

/-- The host is told of a failure exactly when the step ends in it. -/
theorem hostStep_failed_iff {s : State} {f : Fault} : (hostStep s).2 = .failed f ↔ step s = .fault f := by
  unfold hostStep
  cases step s <;> simp

/-- R251: `IllegalInstruction` is the outcome of admitted bytes that are no instruction, and of nothing else. -/
theorem step_eq_illegalInstruction {s : State} :
    step s = .fault .illegalInstruction ↔ s.fetchAdmitted = true ∧ ∃ why, s.fetchedInstr = .rejected why := by
  rw [step_eq_fault]
  constructor
  · rintro (⟨-, hfault⟩ | ⟨hadmitted, hrejected, -⟩ | ⟨i, -, hexec⟩)
    · cases hfault
    · exact ⟨hadmitted, hrejected⟩
    · obtain ⟨ea, hfault, -⟩ := exec_eq_fault hexec
      cases hfault
  · rintro ⟨hadmitted, hrejected⟩
    exact .inr (.inl ⟨hadmitted, hrejected, rfl⟩)

/-- R177: a step that ends in a failure leaves the state unchanged except that `x[0] = 0`. -/
theorem hostStep_unchangedButZero {s : State} {f : Fault} (h : step s = .fault f) :
    UnchangedButZero s (hostStep s).1 :=
  failureLeavesStateUnchanged s f (hostStep_failed_iff.mpr h)

/-- Settles O43: the outcome is that of the decoder's rejection, and the state is the one a failure leaves. -/
theorem illegalInstructionIffUnknown : Obligations.IllegalInstructionIffUnknown :=
  fun _ => ⟨step_eq_illegalInstruction, hostStep_unchangedButZero⟩

/-- R253: `AccessFault(ea)` is the outcome of an LB outside memory or an SB outside memory and off the port, and of
nothing else. -/
theorem step_eq_accessFault {s : State} {ea : Word} :
    step s = .fault (.accessFault ea) ↔ s.mem.size ≤ ea.toNat ∧
      ((∃ rd rs1 imm, s.runs (.lb rd rs1 imm) ∧ ea = s.x rs1 + imm) ∨
        ∃ rs1 rs2 imm, s.runs (.sb rs1 rs2 imm) ∧ ea = s.x rs1 + imm ∧ ea ≠ s.outputPort) := by
  constructor
  · intro h
    rcases step_eq_fault.mp h with ⟨-, hfault⟩ | ⟨-, -, hfault⟩ | ⟨i, hruns, hexec⟩
    · cases hfault
    · cases hfault
    · obtain ⟨_, hfault, hge, ⟨rd, rs1, imm, rfl, hea⟩ | ⟨rs1, rs2, imm, rfl, hea⟩⟩ := exec_eq_fault hexec
      · cases hfault
        exact ⟨hge, .inl ⟨rd, rs1, imm, hruns, hea⟩⟩
      · cases hfault
        exact ⟨hge, .inr ⟨rs1, rs2, imm, hruns, hea⟩⟩
  · rintro ⟨hge, ⟨rd, rs1, imm, hruns, rfl⟩ | ⟨rs1, rs2, imm, hruns, rfl, hport⟩⟩
    · rw [step_of_runs hruns, exec_lb_of_ge hge]
    · rw [step_of_runs hruns, exec_sb_of_ge hport hge]

/-- Settles O44: the outcome is that of LB or SB outside memory, and the state is the one a failure leaves. -/
theorem accessFaultIffOutsideMemory : Obligations.AccessFaultIffOutsideMemory :=
  fun _ _ => ⟨step_eq_accessFault, hostStep_unchangedButZero⟩

/-- A failure does nothing to the state a failure left. -/
@[simp] theorem abort_abort (s : State) : s.abort.abort = s.abort := forceZero_forceZero s

/-- R41: what a failure did to a state is not seen by its step. -/
theorem step_abort (s : State) : step s.abort = step s := (storedRegisterZeroIsNeverRead s).symm

/-- Settles O47: the step of the state that was left has the same outcome, and a second failure does nothing more. -/
theorem failureIsFixedPoint : Obligations.FailureIsFixedPoint := by
  intro s f h
  have hstep : step s = .fault f := hostStep_failed_iff.mp h
  have hagain : step s.abort = .fault f := (step_abort s).trans hstep
  rw [hostStep_of_failed h, hostStep_of_fault hagain, abort_abort]

end Sys2Proof.Machine

/-! ## The normal end of a run

The control transfers that leave the whole state as it is (R273 of spec/60_exceptions.md). -/

namespace Sys2Proof.Machine

/-- In a state where `x[0] = 0`, what a write of `v` would leave is in place when `v` is there already or the register
is x0. -/
theorem regWritten_iff {s : State} (h0 : s.readReg 0 = 0) (rd : Reg) (v : Word) :
    RegWritten rd v s ↔ rd = 0 ∨ s.readReg rd = v := by
  by_cases hrd : rd = 0
  · simp [RegWritten, hrd, h0]
  · simp [RegWritten, hrd]

/-- R273's four ways are one condition on R27's table: the new pc is the old one, and so is the link. -/
theorem selfLoop_iff {s : State} (h0 : s.readReg 0 = 0) (i : Instr) :
    selfLoop s i ↔ newPc s i = s.pc ∧ ∀ rd, destOf i = some rd → RegWritten rd (s.pc + 4) s := by
  cases i with
  | jal | jalr => simp [selfLoop, newPc, destOf, regWritten_iff h0]
  | blt rs1 rs2 imm =>
    by_cases hlt : (s.x rs1).toInt < (s.x rs2).toInt <;> simp [selfLoop, newPc, destOf, hlt]
  | lui | auipc | addi | add | lb | sb => simp [selfLoop, newPc]

/-- Only a control transfer can stay at its own address. -/
theorem isTransfer_of_newPc_eq {s : State} {i : Instr} (h : newPc s i = s.pc) : isTransfer i = true := by
  cases i with
  | jal | jalr | blt => rfl
  | lui | auipc | addi | add | lb | sb => simp [newPc] at h

/-- A control transfer makes no data access. -/
theorem accessAllowed_of_isTransfer {s : State} {i : Instr} (hi : isTransfer i = true) : accessAllowed s i := by
  cases i with
  | jal | jalr | blt => exact trivial
  | lui | auipc | addi | add | lb | sb => cases hi

/-- A completed control transfer links the next address in its destination, if it has one, and changes neither memory
nor the output. -/
theorem exec_transfer {i : Instr} {s t : State} (hi : isTransfer i = true) (h : exec i s = .next t) :
    (∀ rd, destOf i = some rd → RegWritten rd (s.pc + 4) t) ∧ t.mem = s.mem ∧ OutputKept s t := by
  cases i with
  | jal | jalr =>
    simp only [exec_jal, exec_jalr] at h
    cases h
    refine ⟨fun rd hrd => ?_, by simp, by simp [OutputKept, PortKept]⟩
    cases hrd
    exact regWritten_setPc_complete ..
  | blt =>
    rw [exec_blt] at h
    cases h
    simp [destOf, OutputKept, PortKept]
  | lui | auipc | addi | add | lb | sb => cases hi

/-- A control transfer to its own address with the link in place leaves the whole state as it is. -/
theorem exec_transfer_eq_self {i : Instr} {s : State} (h0 : s.readReg 0 = 0) (hpc : newPc s i = s.pc)
    (hlink : ∀ rd, destOf i = some rd → RegWritten rd (s.pc + 4) s) : exec i s = .next s := by
  have hi := isTransfer_of_newPc_eq hpc
  obtain ⟨t, hexec⟩ := everyInstructionCompletes i s (accessAllowed_of_isTransfer hi)
  obtain ⟨hpc', hregs⟩ := exec_pc_and_regs hexec
  obtain ⟨hlink', hmem, ⟨hport, hsink⟩, htrace⟩ := exec_transfer hi hexec
  have hreg (r : Reg) : t.readReg r = s.readReg r := by
    by_cases hr : destOf i = some r
    · exact (hlink' r hr).trans (hlink r hr).symm
    · rw [hregs r (Ne.symm hr), x_eq_readReg s r h0]
  rw [hexec, State.ext_fields (hpc'.trans hpc) hreg hmem hport hsink htrace]

/-- An instruction leaves the whole state as it is exactly when register 0 holds 0 and it is a self-loop. -/
theorem exec_eq_next_self_iff {i : Instr} {s : State} : exec i s = .next s ↔ s.readReg 0 = 0 ∧ selfLoop s i := by
  constructor
  · intro h
    have h0 := exec_readReg_zero h
    have hpc : newPc s i = s.pc := (exec_pc_and_regs h).1.symm
    exact ⟨h0, (selfLoop_iff h0 i).mpr ⟨hpc, (exec_transfer (isTransfer_of_newPc_eq hpc) h).1⟩⟩
  · rintro ⟨h0, hloop⟩
    obtain ⟨hpc, hlink⟩ := (selfLoop_iff h0 i).mp hloop
    exact exec_transfer_eq_self h0 hpc hlink

/-- Settles O48: a step that completes is the instruction it runs, and that one leaves the state exactly at a
self-loop. -/
theorem normalEndIsSelfLoop : Obligations.NormalEndIsSelfLoop := by
  intro s
  simp only [State.endedNormally, step_eq_next, exec_eq_next_self_iff]
  constructor
  · rintro ⟨i, hruns, h0, hloop⟩
    exact ⟨h0, i, hruns, hloop⟩
  · rintro ⟨h0, i, hruns, hloop⟩
    exact ⟨i, hruns, h0, hloop⟩

end Sys2Proof.Machine

/-! ## Loading

The Loader's effect on the state (R291 of spec/70_reset_and_hazards.md, R256 of spec/60_exceptions.md), and the word
placed for the next fetch (log entry 9). -/

namespace Sys2Proof.Machine

/-- R291: a section that fits is copied, and the pc is set. -/
theorem load_of_fits {s : State} {img : Image} (h : img.address + img.bytes.length ≤ s.mem.size) :
    s.load img = .ok { s with
      pc := img.entry
      mem := { s.mem with cells := cellsPutAll s.mem.cells img.address img.bytes } } := if_pos h

/-- R256: a section that does not fit is an overflow. -/
theorem load_of_not_fits {s : State} {img : Image} (h : s.mem.size < img.address + img.bytes.length) :
    s.load img = .error .overflow := if_neg (Nat.not_le.mpr h)

/-- R256: a load that fails, in reading the file or in copying it, leaves the state as it was. -/
theorem hostLoad_of_error {s : State} {parsed : Except LoaderError Image} {e : LoaderError}
    (h : (hostLoad parsed s).2 = .error e) : (hostLoad parsed s).1 = s := by
  cases parsed with
  | error => rfl
  | ok img =>
    cases hload : s.load img with
    | error => simp [hostLoad, hload]
    | ok => simp [hostLoad, hload] at h

/-- Settles O52: the copy is the cells' copy, no register is touched, and each failure keeps the state. -/
theorem loadCopiesTheSection : Obligations.LoadCopiesTheSection := by
  intro s img
  refine ⟨fun hfit hwf => ?_, load_of_not_fits, fun _ _ => hostLoad_of_error⟩
  have hload := load_of_fits hfit
  obtain ⟨-, hin, hout⟩ := cellsPutAll_spec img.bytes ((Memory.wf_iff _).mp hwf).1 hfit
  exact ⟨_, hload, rfl, load_wf hwf hload, rfl, hin, hout, fun _ => rfl, ⟨rfl, rfl⟩, rfl⟩

/-- R60: four bytes that fit at the pc of a canonical memory are admitted; the capacity bound of R6 keeps the pc out of
the negative half. -/
theorem fetchAdmitted_of_fits {s : State} (hwf : s.mem.wf) (hfit : s.pc.toNat + 4 ≤ s.mem.size) :
    s.fetchAdmitted = true := by
  have hbound : 2 * s.pc.toNat < 2 ^ 64 := by
    obtain ⟨-, -, hmax⟩ := hwf
    simp only [maxMemSize] at hmax
    omega
  have hsigned : 0 ≤ s.pc.toInt := by
    rw [BitVec.toInt_eq_toNat_of_lt hbound]
    exact Int.natCast_nonneg _
  exact (fetchAdmitted_iff s).mpr ⟨hsigned, by omega, fun _ => hfit⟩

/-- A word loaded at the pc of a canonical memory is the one the next fetch decodes. -/
theorem loadAtPc_runs {s : State} {w : InstrWord} {i : Instr} (hwf : s.mem.wf) (hfit : s.pc.toNat + 4 ≤ s.mem.size)
    (h : decodeInstr (byteOf w 0) (byteOf w 1) (byteOf w 2) (byteOf w 3) = .ok i) :
    (s.loadAtPc (wordBytes w)).runs i := by
  obtain ⟨t, hload, hpc, hwf', hsize, hbytes, -⟩ :=
    (loadCopiesTheSection s ⟨s.pc.toNat, wordBytes w, s.pc⟩).1 hfit hwf
  have hadmitted : t.fetchAdmitted = true := fetchAdmitted_of_fits hwf' (by rwa [hpc, hsize])
  have hfetched : t.fetchedInstr = .ok i := by
    have hbyte0 : t.mem.byteAt s.pc.toNat = byteOf w 0 := hbytes 0 (show 0 < 4 by decide)
    have hbyte1 : t.mem.byteAt (s.pc.toNat + 1) = byteOf w 1 := hbytes 1 (show 1 < 4 by decide)
    have hbyte2 : t.mem.byteAt (s.pc.toNat + 2) = byteOf w 2 := hbytes 2 (show 2 < 4 by decide)
    have hbyte3 : t.mem.byteAt (s.pc.toNat + 3) = byteOf w 3 := hbytes 3 (show 3 < 4 by decide)
    simp only [State.fetchedInstr, hpc, hbyte0, hbyte1, hbyte2, hbyte3, h]
  rw [State.loadAtPc, hload]
  exact ⟨hadmitted, hfetched⟩

/-- Settles O22: placing the word is a load at the pc, so the state it leaves runs the word's instruction. -/
theorem placedWordIsRunNext : Obligations.PlacedWordIsRunNext := by
  intro s w i hwf hfit h
  exact step_of_runs (loadAtPc_runs hwf hfit (decoded_toOption_eq_some.mp h))

end Sys2Proof.Machine

/-! ## Written words

Words written out from the encodings (R84 to R100 of spec/30_encoding.md, spec/95_test_vectors.md). -/

namespace Sys2Proof

/-- A word that encodes a well-formed instruction decodes to it. -/
theorem decodeInstrWord_of_encode {w : InstrWord} {i : Instr} (h : i.wellFormed = true ∧ encode i = w) :
    decodeInstrWord w = .ok i := by
  obtain ⟨hwf, rfl⟩ := h
  exact decodeInstrWord_encode hwf

/-- Settles O4: each word is the encoding of its well-formed instruction, so the decoder gives it back; the four bytes
are the assembled word. -/
theorem writtenWordsDecode : Obligations.WrittenWordsDecode := by
  have hlui : decodeInstr 0x37#8 0xCC#8 0x03#8 0x00#8 = .ok (.lui 24 0x3C) :=
    (decodeInstr_of_four (by decide) _ _ _).trans (decodeInstrWord_of_encode (by decide))
  exact ⟨decodeInstrWord_of_encode (by decide), decodeInstrWord_of_encode (by decide), hlui,
    decodeInstrWord_of_encode (by decide), decodeInstrWord_of_encode (by decide),
    decodeInstrWord_of_encode (by decide), decodeInstrWord_of_encode (by decide),
    decodeInstrWord_of_encode (by decide), decodeInstrWord_of_encode (by decide)⟩

end Sys2Proof
